-- ==== Sys2Proof/Word.lean ====
section
/-! DEFINITION. The word types of the machine (spec/00_scope.md R7, R9, R10): every value is an
unsigned bit vector of the width the spec gives it. -/

namespace Sys2Proof

/-- A memory byte, a general register or a timer: 8 bits (R7: REG_W, TIMER_W). -/
abbrev Byte := BitVec 8

/-- `pc`, `I`, a stack entry or an instruction word: 16 bits (R7: PC_W, I_W, STACK_W, INSN_W). -/
abbrev Word := BitVec 16

/-- The address field `nnn`: 12 bits (R71). -/
abbrev Addr12 := BitVec 12

/-- A general register's number 0..15 (R7: NREG), and equally any other nibble used as a number. -/
abbrev Reg := Fin 16

/-- VF, register 15, the machine's only flag (R13, R22). -/
abbrev regF : Reg := 15

/-- V0, read implicitly by JP_V0 (R13, R105). -/
abbrev reg0 : Reg := 0

end Sys2Proof
end

