-- ==== Sys2Proof/Config.lean ====
section
/-! DEFINITION. What is fixed for the machine (spec/00_scope.md R7) and the open parameters the spec
names (R8): FONT, RAND and SPRITE_BIT_ORDER. SCHEDULE is the list of host operations a run is given
(Sys2Proof/Machine/HostOps.lean). -/

namespace Sys2Proof.Config

/-- MEM_SIZE: addresses 0..4095 (R7). -/
abbrev memSize : Nat := 4096

/-- LOAD_ADDR: where programs are loaded and the reset value of `pc` (R7). -/
abbrev loadAddr : Nat := 0x200

/-- MAX_PROGRAM: 4096 - 0x200 = 3584 bytes (R7). -/
abbrev maxProgram : Nat := memSize - loadAddr

/-- STACK_DEPTH: 16 entries (R7). -/
abbrev stackDepth : Nat := 16

/-- GLYPH_STRIDE: glyph `d` begins at byte `5 * d` (R7, R51). -/
abbrev glyphStride : Nat := 5

/-- The parameter FONT, glyph by glyph, five row bytes each: the default table of
spec/20_memory.md R52. PRESUMED (log 8): the spec marks the bytes as general knowledge. -/
def glyphs : List (List Byte) :=
  [[0xF0, 0x90, 0x90, 0x90, 0xF0], [0x20, 0x60, 0x20, 0x20, 0x70],
   [0xF0, 0x10, 0xF0, 0x80, 0xF0], [0xF0, 0x10, 0xF0, 0x10, 0xF0],
   [0x90, 0x90, 0xF0, 0x10, 0x10], [0xF0, 0x80, 0xF0, 0x10, 0xF0],
   [0xF0, 0x80, 0xF0, 0x90, 0xF0], [0xF0, 0x10, 0x20, 0x40, 0x40]]
  ++
  [[0xF0, 0x90, 0xF0, 0x90, 0xF0], [0xF0, 0x90, 0xF0, 0x10, 0xF0],
   [0xF0, 0x90, 0xF0, 0x90, 0x90], [0xE0, 0x90, 0xE0, 0x90, 0xE0],
   [0xF0, 0x80, 0x80, 0x80, 0xF0], [0xE0, 0x90, 0x90, 0x90, 0xE0],
   [0xF0, 0x80, 0xF0, 0x80, 0xF0], [0xF0, 0x80, 0xF0, 0x80, 0x80]]

/-- The parameter FONT as the 80 bytes of addresses 0x000..0x04F in order (R51, R52). -/
def font : List Byte := glyphs.flatten

/-- The parameter SPRITE_BIT_ORDER (R8, R152): which bit of a sprite's row byte is column 0. -/
inductive SpriteBitOrder where
  /-- Column `c` is bit `7 - c`. -/
  | msbFirst
  /-- Column `c` is bit `c`. -/
  | lsbFirst
  deriving DecidableEq, Repr

/-- The order in force: most significant bit first, the spec's default (R152, decision D7).
PRESUMED (log 7). -/
def spriteBitOrder : SpriteBitOrder := .msbFirst

/-- The parameter RAND (R8, spec/60_exceptions.md R183): the byte of the k-th draw. A FREE VALUE
with no body: nothing about it can be proved, so a claim holds for every sequence of draws (log 9). -/
opaque randByte : Nat → Byte

end Sys2Proof.Config
end

