-- ==== Sys2Proof/Syntax.lean ====
section
/-! DEFINITION. The instructions: one constructor per row of spec/opcode_table.json, in the table's
order (spec/30_encoding.md R75), each with the operand fields of its format (R71, R72). Every operand
has exactly the width of its field, so a value that no word encodes cannot be written down. -/

namespace Sys2Proof

/-- "an explicit enumerated instruction value carrying its operand fields" (R74). -/
inductive Instr where
  /-- `0000`, R95. -/
  | nop
  /-- `00E0`, R150. -/
  | cls
  /-- `00EE`, R102. -/
  | ret
  /-- `1nnn`, R103. -/
  | jp (nnn : Addr12)
  /-- `2nnn`, R104. -/
  | call (nnn : Addr12)
  /-- `3xkk`, R110. -/
  | seImm (x : Reg) (kk : Byte)
  /-- `4xkk`, R111. -/
  | sneImm (x : Reg) (kk : Byte)
  /-- `5xy0`, R112. -/
  | seReg (x y : Reg)
  /-- `6xkk`, R121. -/
  | ldImm (x : Reg) (kk : Byte)
  /-- `7xkk`, R122. -/
  | addImm (x : Reg) (kk : Byte)
  /-- `8xy0`, R123. -/
  | ldReg (x y : Reg)
  /-- `8xy1`, R124. -/
  | or (x y : Reg)
  /-- `8xy2`, R125. -/
  | and (x y : Reg)
  /-- `8xy3`, R126. -/
  | xor (x y : Reg)
  /-- `8xy4`, R127. -/
  | addReg (x y : Reg)
  /-- `8xy5`, R128. -/
  | sub (x y : Reg)
  /-- `8x_6`, R129. `ignored` is the nibble n3: it names no register and has no effect (R77); it is
  kept so that an instruction stands for one word (log 15). -/
  | shr (x : Reg) (ignored : Fin 16)
  /-- `8xy7`, R130. -/
  | subn (x y : Reg)
  /-- `8x_E`, R131. `ignored` as in `shr`. -/
  | shl (x : Reg) (ignored : Fin 16)
  /-- `9xy0`, R113. -/
  | sneReg (x y : Reg)
  /-- `Annn`, R140. -/
  | ldI (nnn : Addr12)
  /-- `Bnnn`, R105. -/
  | jpV0 (nnn : Addr12)
  /-- `Cxkk`, R132. -/
  | rnd (x : Reg) (kk : Byte)
  /-- `Dxyn`, R151; `n` is the sprite's height 0..15. -/
  | drw (x y : Reg) (n : Fin 16)
  /-- `Ex9E`, R160. -/
  | skp (x : Reg)
  /-- `ExA1`, R161. -/
  | sknp (x : Reg)
  /-- `Fx07`, R163. -/
  | ldVxDt (x : Reg)
  /-- `Fx0A`, R162. -/
  | ldK (x : Reg)
  /-- `Fx15`, R164. -/
  | ldDtVx (x : Reg)
  /-- `Fx18`, R165. -/
  | ldStVx (x : Reg)
  /-- `Fx1E`, R141. -/
  | addI (x : Reg)
  /-- `Fx29`, R142. -/
  | ldF (x : Reg)
  /-- `Fx33`, R143. -/
  | ldB (x : Reg)
  /-- `Fx55`, R144. -/
  | stRegs (x : Reg)
  /-- `Fx65`, R145. -/
  | ldRegs (x : Reg)
  deriving DecidableEq, Repr

end Sys2Proof
end

