-- ==== Sys2Proof/WellFormed.lean ====
section
/-! DEFINITION. Well-formedness. The operands of `Instr` are typed at their fields' widths, so what can
be ill formed is an instruction as it is WRITTEN (the assembler syntax of spec/30_encoding.md R80, whose
mnemonics and operand lists are the spec's decision D12, log 19) and a program as it is LOADED
(spec/70_reset_and_hazards.md R202). This file says what is written and which of it is well formed. -/

namespace Sys2Proof

/-- The 35 mnemonics of R75, one per row of spec/opcode_table.json; there are no pseudo-instructions
(R81). -/
inductive Mnemonic where
  | nop | cls | ret | jp | call | seImm | sneImm | seReg | ldImm
  | addImm | ldReg | or | and | xor | addReg | sub | shr | subn
  | shl | sneReg | ldI | jpV0 | rnd | drw | skp | sknp | ldVxDt
  | ldK | ldDtVx | ldStVx | addI | ldF | ldB | stRegs | ldRegs
  deriving DecidableEq, Repr

/-- The mnemonic's spelling in R75. -/
def Mnemonic.name : Mnemonic → String
  | .nop => "NOP"
  | .cls => "CLS"
  | .ret => "RET"
  | .jp => "JP"
  | .call => "CALL"
  | .seImm => "SE_IMM"
  | .sneImm => "SNE_IMM"
  | .seReg => "SE_REG"
  | .ldImm => "LD_IMM"
  | .addImm => "ADD_IMM"
  | .ldReg => "LD_REG"
  | .or => "OR"
  | .and => "AND"
  | .xor => "XOR"
  | .addReg => "ADD_REG"
  | .sub => "SUB"
  | .shr => "SHR"
  | .subn => "SUBN"
  | .shl => "SHL"
  | .sneReg => "SNE_REG"
  | .ldI => "LD_I"
  | .jpV0 => "JP_V0"
  | .rnd => "RND"
  | .drw => "DRW"
  | .skp => "SKP"
  | .sknp => "SKNP"
  | .ldVxDt => "LD_VX_DT"
  | .ldK => "LD_K"
  | .ldDtVx => "LD_DT_VX"
  | .ldStVx => "LD_ST_VX"
  | .addI => "ADD_I"
  | .ldF => "LD_F"
  | .ldB => "LD_B"
  | .stRegs => "ST_REGS"
  | .ldRegs => "LD_REGS"

/-- The operand lists of R80: the six formats of R72, with the row "XY, y ignored" (SHR and SHL) apart. -/
inductive Format where
  | fixed | nnn | xkk | xy | xyIgnored | xyn | x
  deriving DecidableEq, Repr

/-- The format of each mnemonic (R75; R80 for SHR and SHL). -/
def Mnemonic.format : Mnemonic → Format
  | .nop => .fixed
  | .cls => .fixed
  | .ret => .fixed
  | .jp => .nnn
  | .call => .nnn
  | .seImm => .xkk
  | .sneImm => .xkk
  | .seReg => .xy
  | .ldImm => .xkk
  | .addImm => .xkk
  | .ldReg => .xy
  | .or => .xy
  | .and => .xy
  | .xor => .xy
  | .addReg => .xy
  | .sub => .xy
  | .shr => .xyIgnored
  | .subn => .xy
  | .shl => .xyIgnored
  | .sneReg => .xy
  | .ldI => .nnn
  | .jpV0 => .nnn
  | .rnd => .xkk
  | .drw => .xyn
  | .skp => .x
  | .sknp => .x
  | .ldVxDt => .x
  | .ldK => .x
  | .ldDtVx => .x
  | .ldStVx => .x
  | .addI => .x
  | .ldF => .x
  | .ldB => .x
  | .stRegs => .x
  | .ldRegs => .x

/-- An operand as written (R80): a register `V0`..`VF` by its digit, or a hexadecimal number. -/
inductive AsmOperand where
  | reg (digit : Nat)
  | num (value : Nat)
  deriving DecidableEq, Repr

/-- One line of assembly (R80): an instruction, or the data directive `DB b, b, ...`. -/
inductive AsmLine where
  | insn (mnemonic : Mnemonic) (operands : List AsmOperand)
  | db (bytes : List Nat)
  deriving DecidableEq, Repr

/-- The operands are those of the format, each within its field (R71, R73, R80). -/
def operandsFit : Format → List AsmOperand → Bool
  | .fixed, [] => true
  | .nnn, [.num a] => a < 4096
  | .xkk, [.reg x, .num k] => x < 16 && k < 256
  | .xy, [.reg x, .reg y] => x < 16 && y < 16
  | .xyIgnored, [.reg x] => x < 16
  | .xyn, [.reg x, .reg y, .num n] => x < 16 && y < 16 && n < 16
  | .x, [.reg x] => x < 16
  | _, _ => false

/-- A well-formed line: its operands fit its mnemonic's format, its data are bytes. -/
def AsmLine.wf : AsmLine → Bool
  | .insn m operands => operandsFit m.format operands
  | .db bytes => bytes.all (· < 256)

/-- The precondition of LOAD_PROGRAM: "`bytes.length` must not exceed `4096 - 0x200`" (R202). -/
def programFits (bytes : List Byte) : Bool := bytes.length ≤ Config.maxProgram

/-- The row of R75 an instruction stands for. -/
def Instr.mnemonic : Instr → Mnemonic
  | .nop => .nop
  | .cls => .cls
  | .ret => .ret
  | .jp _ => .jp
  | .call _ => .call
  | .seImm _ _ => .seImm
  | .sneImm _ _ => .sneImm
  | .seReg _ _ => .seReg
  | .ldImm _ _ => .ldImm
  | .addImm _ _ => .addImm
  | .ldReg _ _ => .ldReg
  | .or _ _ => .or
  | .and _ _ => .and
  | .xor _ _ => .xor
  | .addReg _ _ => .addReg
  | .sub _ _ => .sub
  | .shr _ _ => .shr
  | .subn _ _ => .subn
  | .shl _ _ => .shl
  | .sneReg _ _ => .sneReg
  | .ldI _ => .ldI
  | .jpV0 _ => .jpV0
  | .rnd _ _ => .rnd
  | .drw _ _ _ => .drw
  | .skp _ => .skp
  | .sknp _ => .sknp
  | .ldVxDt _ => .ldVxDt
  | .ldK _ => .ldK
  | .ldDtVx _ => .ldDtVx
  | .ldStVx _ => .ldStVx
  | .addI _ => .addI
  | .ldF _ => .ldF
  | .ldB _ => .ldB
  | .stRegs _ => .stRegs
  | .ldRegs _ => .ldRegs

/-- The operands as R80 writes them; an ignored nibble is not written. -/
def Instr.operands : Instr → List AsmOperand
  | .nop => []
  | .cls => []
  | .ret => []
  | .jp a => [.num a.toNat]
  | .call a => [.num a.toNat]
  | .seImm x k => [.reg x.val, .num k.toNat]
  | .sneImm x k => [.reg x.val, .num k.toNat]
  | .seReg x y => [.reg x.val, .reg y.val]
  | .ldImm x k => [.reg x.val, .num k.toNat]
  | .addImm x k => [.reg x.val, .num k.toNat]
  | .ldReg x y => [.reg x.val, .reg y.val]
  | .or x y => [.reg x.val, .reg y.val]
  | .and x y => [.reg x.val, .reg y.val]
  | .xor x y => [.reg x.val, .reg y.val]
  | .addReg x y => [.reg x.val, .reg y.val]
  | .sub x y => [.reg x.val, .reg y.val]
  | .shr x _ => [.reg x.val]
  | .subn x y => [.reg x.val, .reg y.val]
  | .shl x _ => [.reg x.val]
  | .sneReg x y => [.reg x.val, .reg y.val]
  | .ldI a => [.num a.toNat]
  | .jpV0 a => [.num a.toNat]
  | .rnd x k => [.reg x.val, .num k.toNat]
  | .drw x y n => [.reg x.val, .reg y.val, .num n.val]
  | .skp x => [.reg x.val]
  | .sknp x => [.reg x.val]
  | .ldVxDt x => [.reg x.val]
  | .ldK x => [.reg x.val]
  | .ldDtVx x => [.reg x.val]
  | .ldStVx x => [.reg x.val]
  | .addI x => [.reg x.val]
  | .ldF x => [.reg x.val]
  | .ldB x => [.reg x.val]
  | .stRegs x => [.reg x.val]
  | .ldRegs x => [.reg x.val]

/-- The line that writes an instruction. -/
def Instr.toAsm (i : Instr) : AsmLine := .insn i.mnemonic i.operands

/-- An instruction is well formed when the line that writes it is. -/
def Instr.wf (i : Instr) : Bool := i.toAsm.wf

end Sys2Proof
end

