-- ==== Sys2Proof/Decode.lean ====
section
/-! DEFINITION. Decoding and encoding (spec/30_encoding.md R70 to R77; R92; the assembler of R80). -/

namespace Sys2Proof

/-! ## Fields (R71) -/

/-- `op[hi:lo]` for a nibble: the four bits of `op` from bit `lo` up. -/
def nibbleAt (op : Word) (lo : Nat) : Fin 16 := (op.extractLsb' lo 4).toFin

/-- n1, "bits 12-15". -/
def fieldN1 (op : Word) : Fin 16 := nibbleAt op 12
/-- x, n2, "bits 8-11". -/
def fieldX (op : Word) : Reg := nibbleAt op 8
/-- y, n3, "bits 4-7". -/
def fieldY (op : Word) : Reg := nibbleAt op 4
/-- n, n4, "bits 0-3". -/
def fieldN (op : Word) : Fin 16 := nibbleAt op 0
/-- kk, "opcode & 0xFF". -/
def fieldKK (op : Word) : Byte := op.extractLsb' 0 8
/-- nnn, "low 12 bits of opcode". -/
def fieldNNN (op : Word) : Addr12 := op.extractLsb' 0 12

/-- A word from its two bytes, high byte first (R70, spec/20_memory.md R55). -/
def wordOfBytes (hi lo : Byte) : Word := hi ++ lo
/-- The byte at the lower address. -/
def highByte (op : Word) : Byte := op.extractLsb' 8 8
/-- The byte at the higher address. -/
def lowByte (op : Word) : Byte := op.extractLsb' 0 8

/-! ## The dispatch (R74, R75)

Every family whose rows do not fill it is a function of its own, so that an undefined word (R76) is
refused where its row would be. -/

/-- `0nnn`: three words only. -/
def decode0 (op : Word) : Option Instr :=
  if op = 0x0000 then some .nop
  else if op = 0x00E0 then some .cls
  else if op = 0x00EE then some .ret
  else none

/-- `8xyN`. -/
def decode8 (op : Word) : Option Instr :=
  match (fieldN op).val with
  | 0x0 => some (.ldReg (fieldX op) (fieldY op))
  | 0x1 => some (.or (fieldX op) (fieldY op))
  | 0x2 => some (.and (fieldX op) (fieldY op))
  | 0x3 => some (.xor (fieldX op) (fieldY op))
  | 0x4 => some (.addReg (fieldX op) (fieldY op))
  | 0x5 => some (.sub (fieldX op) (fieldY op))
  | 0x6 => some (.shr (fieldX op) (fieldY op))
  | 0x7 => some (.subn (fieldX op) (fieldY op))
  | 0xE => some (.shl (fieldX op) (fieldY op))
  | _ => none

/-- `Exkk`. -/
def decodeE (op : Word) : Option Instr :=
  match (fieldKK op).toNat with
  | 0x9E => some (.skp (fieldX op))
  | 0xA1 => some (.sknp (fieldX op))
  | _ => none

/-- `Fxkk`. -/
def decodeF (op : Word) : Option Instr :=
  match (fieldKK op).toNat with
  | 0x07 => some (.ldVxDt (fieldX op))
  | 0x0A => some (.ldK (fieldX op))
  | 0x15 => some (.ldDtVx (fieldX op))
  | 0x18 => some (.ldStVx (fieldX op))
  | 0x1E => some (.addI (fieldX op))
  | 0x29 => some (.ldF (fieldX op))
  | 0x33 => some (.ldB (fieldX op))
  | 0x55 => some (.stRegs (fieldX op))
  | 0x65 => some (.ldRegs (fieldX op))
  | _ => none

/-- `Decode(op)` of R92: the instruction whose row `op` matches, `none` where no row matches (R76). -/
def decodeWord (op : Word) : Option Instr :=
  match (fieldN1 op).val with
  | 0x0 => decode0 op
  | 0x1 => some (.jp (fieldNNN op))
  | 0x2 => some (.call (fieldNNN op))
  | 0x3 => some (.seImm (fieldX op) (fieldKK op))
  | 0x4 => some (.sneImm (fieldX op) (fieldKK op))
  | 0x5 => if fieldN op = 0 then some (.seReg (fieldX op) (fieldY op)) else none
  | 0x6 => some (.ldImm (fieldX op) (fieldKK op))
  | 0x7 => some (.addImm (fieldX op) (fieldKK op))
  | 0x8 => decode8 op
  | 0x9 => if fieldN op = 0 then some (.sneReg (fieldX op) (fieldY op)) else none
  | 0xA => some (.ldI (fieldNNN op))
  | 0xB => some (.jpV0 (fieldNNN op))
  | 0xC => some (.rnd (fieldX op) (fieldKK op))
  | 0xD => some (.drw (fieldX op) (fieldY op) (fieldN op))
  | 0xE => decodeE op
  | 0xF => decodeF op
  | _ => none  -- no nibble is above 15

/-- Why bytes decode to no instruction. -/
inductive DecodeError where
  /-- Fewer than the two bytes of an instruction (R70). -/
  | truncated
  /-- The word matches no row of R75 (R76). -/
  | undefinedOpcode (op : Word)
  deriving DecidableEq, Repr

/-- Decode the instruction at the head of a byte sequence and give the rest of it. -/
def decode : List Byte → Except DecodeError (Instr × List Byte)
  | hi :: lo :: rest =>
    match decodeWord (wordOfBytes hi lo) with
    | some i => .ok (i, rest)
    | none => .error (.undefinedOpcode (wordOfBytes hi lo))
  | _ => .error .truncated

/-- The instruction the decoder reads from a table row's bits: the word's two bytes as memory holds
them, high byte first. -/
def decodeTableWord (nbits w : Nat) : Option Instr :=
  let op : Word := BitVec.ofNat 16 (w % 2 ^ nbits)
  match decode [highByte op, lowByte op] with
  | .ok (i, _) => some i
  | .error _ => none

/-! ## Encoding (R72, R75) -/

/-- A nibble operand as four bits. -/
def nibbleBits (k : Fin 16) : BitVec 4 := BitVec.ofFin k

/-- Format NNN. -/
def wordNNN (n1 : BitVec 4) (nnn : Addr12) : Word := n1 ++ nnn
/-- Formats XKK and X. -/
def wordXKK (n1 : BitVec 4) (x : Reg) (kk : Byte) : Word := n1 ++ nibbleBits x ++ kk
/-- Formats XY and XYN. -/
def wordXYN (n1 : BitVec 4) (x y : Reg) (n : Fin 16) : Word :=
  n1 ++ nibbleBits x ++ nibbleBits y ++ nibbleBits n

/-- The word of an instruction. -/
def encode : Instr → Word
  | .nop => 0x0000
  | .cls => 0x00E0
  | .ret => 0x00EE
  | .jp nnn => wordNNN 0x1 nnn
  | .call nnn => wordNNN 0x2 nnn
  | .seImm x kk => wordXKK 0x3 x kk
  | .sneImm x kk => wordXKK 0x4 x kk
  | .seReg x y => wordXYN 0x5 x y 0x0
  | .ldImm x kk => wordXKK 0x6 x kk
  | .addImm x kk => wordXKK 0x7 x kk
  | .ldReg x y => wordXYN 0x8 x y 0x0
  | .or x y => wordXYN 0x8 x y 0x1
  | .and x y => wordXYN 0x8 x y 0x2
  | .xor x y => wordXYN 0x8 x y 0x3
  | .addReg x y => wordXYN 0x8 x y 0x4
  | .sub x y => wordXYN 0x8 x y 0x5
  | .shr x ignored => wordXYN 0x8 x ignored 0x6
  | .subn x y => wordXYN 0x8 x y 0x7
  | .shl x ignored => wordXYN 0x8 x ignored 0xE
  | .sneReg x y => wordXYN 0x9 x y 0x0
  | .ldI nnn => wordNNN 0xA nnn
  | .jpV0 nnn => wordNNN 0xB nnn
  | .rnd x kk => wordXKK 0xC x kk
  | .drw x y n => wordXYN 0xD x y n
  | .skp x => wordXKK 0xE x 0x9E
  | .sknp x => wordXKK 0xE x 0xA1
  | .ldVxDt x => wordXKK 0xF x 0x07
  | .ldK x => wordXKK 0xF x 0x0A
  | .ldDtVx x => wordXKK 0xF x 0x15
  | .ldStVx x => wordXKK 0xF x 0x18
  | .addI x => wordXKK 0xF x 0x1E
  | .ldF x => wordXKK 0xF x 0x29
  | .ldB x => wordXKK 0xF x 0x33
  | .stRegs x => wordXKK 0xF x 0x55
  | .ldRegs x => wordXKK 0xF x 0x65

/-- The bytes of an instruction as memory holds them. -/
def encodeBytes (i : Instr) : List Byte := [highByte (encode i), lowByte (encode i)]

/-! ## The opcode table as masks (R75)

The table's own statement of its rows, for the claim that the dispatch follows it. -/

/-- The row's mask. -/
def Mnemonic.mask : Mnemonic → Word
  | .nop => 0xFFFF
  | .cls => 0xFFFF
  | .ret => 0xFFFF
  | .jp => 0xF000
  | .call => 0xF000
  | .seImm => 0xF000
  | .sneImm => 0xF000
  | .seReg => 0xF00F
  | .ldImm => 0xF000
  | .addImm => 0xF000
  | .ldReg => 0xF00F
  | .or => 0xF00F
  | .and => 0xF00F
  | .xor => 0xF00F
  | .addReg => 0xF00F
  | .sub => 0xF00F
  | .shr => 0xF00F
  | .subn => 0xF00F
  | .shl => 0xF00F
  | .sneReg => 0xF00F
  | .ldI => 0xF000
  | .jpV0 => 0xF000
  | .rnd => 0xF000
  | .drw => 0xF000
  | .skp => 0xF0FF
  | .sknp => 0xF0FF
  | .ldVxDt => 0xF0FF
  | .ldK => 0xF0FF
  | .ldDtVx => 0xF0FF
  | .ldStVx => 0xF0FF
  | .addI => 0xF0FF
  | .ldF => 0xF0FF
  | .ldB => 0xF0FF
  | .stRegs => 0xF0FF
  | .ldRegs => 0xF0FF

/-- The row's match. -/
def Mnemonic.pattern : Mnemonic → Word
  | .nop => 0x0000
  | .cls => 0x00E0
  | .ret => 0x00EE
  | .jp => 0x1000
  | .call => 0x2000
  | .seImm => 0x3000
  | .sneImm => 0x4000
  | .seReg => 0x5000
  | .ldImm => 0x6000
  | .addImm => 0x7000
  | .ldReg => 0x8000
  | .or => 0x8001
  | .and => 0x8002
  | .xor => 0x8003
  | .addReg => 0x8004
  | .sub => 0x8005
  | .shr => 0x8006
  | .subn => 0x8007
  | .shl => 0x800E
  | .sneReg => 0x9000
  | .ldI => 0xA000
  | .jpV0 => 0xB000
  | .rnd => 0xC000
  | .drw => 0xD000
  | .skp => 0xE09E
  | .sknp => 0xE0A1
  | .ldVxDt => 0xF007
  | .ldK => 0xF00A
  | .ldDtVx => 0xF015
  | .ldStVx => 0xF018
  | .addI => 0xF01E
  | .ldF => 0xF029
  | .ldB => 0xF033
  | .stRegs => 0xF055
  | .ldRegs => 0xF065

/-- "`(op & mask) == match`" (R75). -/
def Mnemonic.selects (m : Mnemonic) (op : Word) : Bool := op &&& m.mask = m.pattern

/-! ## The assembler (R80) -/

/-- The operands' fields in their places in the word (R71); the ignored nibble of SHR and SHL is
assembled as 0 (R80). -/
def operandBits : Format → List AsmOperand → Nat
  | .nnn, [.num a] => a
  | .xkk, [.reg x, .num k] => x * 256 + k
  | .xy, [.reg x, .reg y] => x * 256 + y * 16
  | .xyIgnored, [.reg x] => x * 256
  | .xyn, [.reg x, .reg y, .num n] => x * 256 + y * 16 + n
  | .x, [.reg x] => x * 256
  | _, _ => 0

/-- The word a line stands for: its row's match and its operands' fields. -/
def assembleWord (m : Mnemonic) (operands : List AsmOperand) : Word :=
  m.pattern + BitVec.ofNat 16 (operandBits m.format operands)

/-- The bytes a line assembles to, `none` for an ill-formed line. -/
def assemble (l : AsmLine) : Option (List Byte) :=
  if l.wf then
    match l with
    | .insn m operands =>
      some [highByte (assembleWord m operands), lowByte (assembleWord m operands)]
    | .db bytes => some (bytes.map (BitVec.ofNat 8))
  else none

/-- The bytes of a list of lines, in order. -/
def assembleAll (lines : List AsmLine) : Option (List Byte) :=
  (lines.mapM assemble).map List.flatten

end Sys2Proof
end

