-- ==== Sys2Proof/Machine/State.lean ====
section
/-! DEFINITION. The state of the machine (spec/10_state.md R20: "the following and nothing else"), its
value after reset (R40), and the interface's reasons to stop. -/

namespace Sys2Proof.Machine

/-- `MEM` (R32): the bytes that differ from what memory holds at reset, as address and byte pairs with
addresses strictly rising (`Memory.wf` in Machine/Memory.lean). -/
abbrev Memory := List Host.Cell

/-- `FB` (R30): 32 rows of 64 cells, row-major; `true` means lit. -/
abbrev Framebuffer := Vector (Vector Bool 64) 32

/-- The fault causes of spec/60_exceptions.md R171, in the order of their codes. -/
inductive Cause where
  /-- 0: no fault. -/
  | none
  /-- 1: `pc + 1 > 4095` at the start of a STEP. -/
  | fetchOob
  /-- 2: the fetched word matches no row of R75. -/
  | undefinedOpcode
  /-- 3: Push with `SP == 16`. -/
  | stackOverflow
  /-- 4: Pop with `SP == 0`. -/
  | stackUnderflow
  /-- 5: a data access at an address above 4095. -/
  | memOob
  /-- 6: a key number above 15 in SKP or SKNP. -/
  | keyIndexOob
  /-- 7: LOAD_PROGRAM with more than 3584 bytes. -/
  | loadCapacity
  deriving DecidableEq, Repr

/-- `FAULT` (R33): the first fatal error since the last RESET. -/
structure FaultRecord where
  /-- 1 = the machine is halted. -/
  valid : Bool
  cause : Cause
  /-- The fetched word of the failing instruction, 0 when no word was fetched. -/
  opcode : Word
  /-- The address of the failing instruction. -/
  addr : Word
  deriving DecidableEq, Repr

/-- `FAULT` after reset (R40). -/
def FaultRecord.clear : FaultRecord := { valid := false, cause := .none, opcode := 0, addr := 0 }

/-- The complete architectural state (R20), and one field of the model's own, `draws`. -/
structure State where
  /-- `MEM` (R32). -/
  mem : Memory
  /-- `pc` (R23). -/
  pc : Word
  /-- `V[0..15]` (R21); `V[15]` is VF (R22). -/
  v : Vector Byte 16
  /-- `I` (R25). -/
  i : Word
  /-- `STACK[0..15]` (R26). -/
  stack : Vector Word 16
  /-- `SP`, 0..16 (R27). -/
  sp : Fin 17
  /-- `DT` (R28). -/
  dt : Byte
  /-- `ST` (R29). -/
  st : Byte
  /-- `FB` (R30). -/
  fb : Framebuffer
  /-- `KEY[0..15]` (R31). -/
  key : Vector Bool 16
  /-- `FAULT` (R33). -/
  fault : FaultRecord
  /-- The model's own: how many random bytes have been drawn (log 9). -/
  draws : Nat
  deriving DecidableEq, Repr

/-- The machine after reset and after construction (R40, spec/70_reset_and_hazards.md R201). `I` and
`STACK` are 0 by the spec's decisions D11 and D4 (logs 10, 4), `FAULT` by D5 (log 2); `draws` is the
model's DESIGN CHOICE (log 9). -/
def State.reset : State where
  mem := []
  pc := 0x0200
  v := Vector.replicate 16 0
  i := 0
  stack := Vector.replicate 16 0
  sp := 0
  dt := 0
  st := 0
  fb := Vector.replicate 32 (Vector.replicate 64 false)
  key := Vector.replicate 16 false
  fault := .clear
  draws := 0

/-- The interface's faults: NONE. The spec describes the entry of every fatal error (R33, R90, R174),
so each is a next state with `FAULT` latched (log 1), and no situation is left in which the machine stops
without one. Nobody raises a value of this type. -/
inductive Fault where
  deriving DecidableEq, Repr

/-- The interface's refusals. -/
inductive Refusal where
  /-- An instruction without a meaning in this model, by its mnemonic. Safe: nothing follows from it.
  Raised by no arm: every instruction has its meaning. -/
  | notModelled (mnemonic : String)
  deriving DecidableEq, Repr

/-- What a meaning answers. -/
abbrev Result := Host.Outcome State Fault Refusal

end Sys2Proof.Machine
end

