-- ==== Sys2Proof/Machine/Memory.lean ====
section
/-! DEFINITION. `MEM` (spec/20_memory.md): its reset content, one byte's read and write, and the bounds
that every access of an instruction is checked against. -/

namespace Sys2Proof.Machine

/-- What `MEM[a]` holds at reset, and so what an unlisted address reads as (R40, R51): FONT below 0x050,
zero from there on. -/
def resetByte (a : Nat) : Byte := Config.font.getD a 0

namespace Memory

/-- `MEM[a]`. -/
def get (m : Memory) (a : Nat) : Byte :=
  match m with
  | [] => resetByte a
  | (b, w) :: rest => if b = a then w else get rest a

/-- Put a cell in its place, before the first higher address. -/
def insertCell (a : Nat) (w : Byte) : Memory → Memory
  | [] => [(a, w)]
  | (b, u) :: rest => if a < b then (a, w) :: (b, u) :: rest else (b, u) :: insertCell a w rest

/-- `MEM[a] <- w`, keeping the canonical form: a byte equal to the reset content is not listed. -/
def set (m : Memory) (a : Nat) (w : Byte) : Memory :=
  let others := m.filter fun c => c.1 != a
  if w = resetByte a then others else insertCell a w others

/-- The canonical form from address `lo` on: addresses strictly rising and inside the 4096 bytes, no
entry equal to the reset content. -/
def wfFrom (lo : Nat) : Memory → Bool
  | [] => true
  | (a, w) :: rest =>
    lo ≤ a && a < Config.memSize && w != resetByte a && wfFrom (a + 1) rest

/-- The canonical form: equal memories are equal lists. -/
def wf (m : Memory) : Bool := wfFrom 0 m

/-- The `n` bytes from `base` up, in ascending order (R56, R58). -/
def getBytes (m : Memory) (base : Nat) : Nat → List Byte
  | 0 => []
  | n + 1 => m.get base :: getBytes m (base + 1) n

/-- Write bytes from `base` up, in ascending order (R56, R58). -/
def setBytes (m : Memory) (base : Nat) : List Byte → Memory
  | [] => m
  | w :: rest => setBytes (m.set base w) (base + 1) rest

/-- The `n` bytes from `base` up are all at addresses 0..4095; an empty range makes no access (R54, R59).
The address is a natural number, not reduced to any width. -/
def inRange (base n : Nat) : Bool := n = 0 || base + n ≤ Config.memSize

/-- `MemRead` of each of `n` bytes from `base` up (R54): `none` is "raise MEM_OOB". -/
def load (m : Memory) (base n : Nat) : Option (List Byte) :=
  if inRange base n then some (m.getBytes base n) else none

/-- `MemWrite` of each byte from `base` up (R54), all or none (R59): `none` is "raise MEM_OOB". -/
def store (m : Memory) (base : Nat) (bytes : List Byte) : Option Memory :=
  if inRange base bytes.length then some (m.setBytes base bytes) else none

end Memory

end Sys2Proof.Machine
end

