-- ==== Sys2Proof/Machine/Ops.lean ====
section
/-! DEFINITION. The named operations over the state: the one read and write of each register, the
movements of `pc`, the stack controller, the fetch, TAKING A FAULT and the return from it. -/

namespace Sys2Proof.Machine

namespace State

/-! ## Registers -/

/-- `V[x]` (R12, R21). -/
def getV (s : State) (x : Reg) : Byte := s.v.get x

/-- `V[x] <- b`; no register is hard-wired (R21). -/
def setV (s : State) (x : Reg) (b : Byte) : State := { s with v := s.v.set x b }

/-- Replace the whole register file. -/
def setVs (s : State) (v : Vector Byte 16) : State := { s with v := v }

/-- `pc <- t`. -/
def setPc (s : State) (t : Word) : State := { s with pc := t }

/-- `I <- w` (R25). -/
def setI (s : State) (w : Word) : State := { s with i := w }

/-- `DT <- b` (R28). -/
def setDt (s : State) (b : Byte) : State := { s with dt := b }

/-- `ST <- b` (R29). -/
def setSt (s : State) (b : Byte) : State := { s with st := b }

/-- Replace `MEM`. -/
def setMem (s : State) (m : Memory) : State := { s with mem := m }

/-- Replace `FB`. -/
def setFb (s : State) (fb : Framebuffer) : State := { s with fb := fb }

/-- Replace `KEY`. -/
def setKeys (s : State) (key : Vector Bool 16) : State := { s with key := key }

/-- Replace `STACK` and `SP`. -/
def setStack (s : State) (stack : Vector Word 16) (sp : Fin 17) : State :=
  { s with stack := stack, sp := sp }

/-- Replace `FAULT`. -/
def setFault (s : State) (f : FaultRecord) : State := { s with fault := f }

/-- One more random byte has been drawn (log 9). -/
def countDraw (s : State) : State := { s with draws := s.draws + 1 }

/-! ## Movements of `pc`, modulo 2^16 (R24; decision D13, log 11) -/

/-- The fetch's `pc <- pc + 2` (R91). -/
def advance (s : State) : State := s.setPc (s.pc + 2)

/-- `Skip()`: `pc <- pc + 2` once more (R114). -/
def skip (s : State) : State := s.setPc (s.pc + 2)

/-- `pc <- pc - 2`, back to the instruction (R162; the undoing of the fetch in R90). -/
def rewind (s : State) : State := s.setPc (s.pc - 2)

/-! ## The stack controller (spec/41_control_flow.md R100, R101; slot layout: decision D4, log 4) -/

/-- `Push(v)`: `none` is "raise STACK_OVERFLOW". -/
def push (s : State) (w : Word) : Option State :=
  if h : s.sp.val < 16 then
    some (s.setStack (s.stack.set s.sp.val w h) ⟨s.sp.val + 1, by omega⟩)
  else none

/-- `Pop()`: `none` is "raise STACK_UNDERFLOW". The slot read keeps its value. -/
def pop (s : State) : Option (Word × State) :=
  if h : 0 < s.sp.val then
    some (s.stack[s.sp.val - 1]'(by omega),
      s.setStack s.stack ⟨s.sp.val - 1, by omega⟩)
  else none

/-! ## The fetch (spec/40_step_cycle.md R91) -/

/-- The word at `pc`, big-endian; `none` is "raise FETCH_OOB". `pc + 1` is a natural number. -/
def fetch (s : State) : Option Word :=
  if s.pc.toNat + 1 > 4095 then none
  else some (wordOfBytes (s.mem.get s.pc.toNat) (s.mem.get (s.pc.toNat + 1)))

/-! ## Faults: the machine's one class of exception (spec/60_exceptions.md R170 to R175) -/

/-- TAKING A FAULT (R90, R174; decision D5, log 2): the record is written and the machine is halted;
nothing else changes. -/
def takeFault (s : State) (cause : Cause) (opcode addr : Word) : State :=
  s.setFault { valid := true, cause := cause, opcode := opcode, addr := addr }

/-- `raise` from the execute phase of `i` (R90, R93): the fetch's advance is undone and the fault
recorded with the instruction's word and its address. A meaning raises before its first write, so
nothing else is there to undo. -/
def raiseFrom (s : State) (cause : Cause) (i : Instr) : State :=
  s.rewind.takeFault cause (encode i) s.rewind.pc

/-- THE RETURN: the only way out of a fault is RESET (R175, R200), which writes every element of the
state. The count of draws goes on, so that no draw is repeated across RESET (R183, log 9). -/
def resetOp (s : State) : State := { State.reset with draws := s.draws }

end State

/-- The code of a cause in `FAULT.cause` (R171). -/
def Cause.code : Cause → BitVec 3
  | .none => 0
  | .fetchOob => 1
  | .undefinedOpcode => 2
  | .stackOverflow => 3
  | .stackUnderflow => 4
  | .memOob => 5
  | .keyIndexOob => 6
  | .loadCapacity => 7

/-- A meaning's `raise`. -/
def raise (cause : Cause) (i : Instr) (s : State) : Result := .next (s.raiseFrom cause i)

end Sys2Proof.Machine
end

