-- ==== Sys2Proof/Machine/Operands.lean ====
section
/-! DEFINITION. Operand forms: how a field or a register's value becomes an address, a key, a digit, a
pixel (spec/30_encoding.md R73 and the instruction rules). -/

namespace Sys2Proof.Machine

/-- `zext_16(nnn)` (R73). -/
def zextAddr (nnn : Addr12) : Word := nnn.setWidth 16

/-- `zext_16(V[x])` (R10). -/
def zextByte (b : Byte) : Word := b.setWidth 16

/-- The address of glyph `b` of the font, the value not masked to a nibble (R142). -/
def glyphAddr (b : Byte) : Word := zextByte b * BitVec.ofNat 16 Config.glyphStride

/-- Hundreds, tens and ones of a byte, by the source's own expressions (R143). -/
def bcdDigits (b : Byte) : List Byte :=
  [BitVec.ofNat 8 (b.toNat / 100), BitVec.ofNat 8 (b.toNat / 10 % 10),
   BitVec.ofNat 8 (b.toNat % 100 % 10)]

/-- V0..Vx, that is x + 1 registers (R144). -/
def regsUpTo (v : Vector Byte 16) (x : Reg) : List Byte := v.toList.take (x.val + 1)

/-- `V[k], V[k+1], ... <-` the bytes, in order (R145). -/
def loadRegsFrom (v : Vector Byte 16) (k : Nat) : List Byte → Vector Byte 16
  | [] => v
  | b :: rest => loadRegsFrom (v.setIfInBounds k b) (k + 1) rest

/-- A register's value as a key number; `none` is "raise KEY_INDEX_OOB" (R160, R161; decision D3,
log 3). -/
def keyIndex (b : Byte) : Option (Fin 16) :=
  if h : b.toNat < 16 then some ⟨b.toNat, h⟩ else none

/-- The scan of R162: ascending, "later hits replace earlier ones". -/
def heldKey (key : Vector Bool 16) : Option (Fin 16) :=
  (List.finRange 16).foldl (fun found i => if key.get i then some i else found) none

/-- A key number as a register value, 0..15. -/
def keyByte (k : Fin 16) : Byte := BitVec.ofNat 8 k.val

/-! ## Pixels (spec/45_display.md R151, R152) -/

/-- Column `c` of a sprite's row byte is a set bit. -/
def spriteBit (order : Config.SpriteBitOrder) (b : Byte) (c : Nat) : Bool :=
  match order with
  | .msbFirst => b.getLsbD (7 - c)
  | .lsbFirst => b.getLsbD c

/-- `(origin_x + column) mod 64`. -/
def wrapX (a : Nat) : Fin 64 := ⟨a % 64, Nat.mod_lt a (by decide)⟩

/-- `(origin_y + row) mod 32`. -/
def wrapY (a : Nat) : Fin 32 := ⟨a % 32, Nat.mod_lt a (by decide)⟩

/-- `FB[y][x]` (R30). -/
def Framebuffer.pixel (fb : Framebuffer) (x : Fin 64) (y : Fin 32) : Bool := (fb.get y).get x

/-- `FB[y][x] <- FB[y][x] ^ 1`. -/
def Framebuffer.toggle (fb : Framebuffer) (x : Fin 64) (y : Fin 32) : Framebuffer :=
  fb.set y ((fb.get y).set x (!fb.pixel x y))

/-- Every cell unlit (R150). -/
def Framebuffer.blank : Framebuffer := Vector.replicate 32 (Vector.replicate 64 false)

/-- A drawing in progress: the cells, and whether a lit one has been turned off. -/
abbrev Drawing := Framebuffer × Bool

/-- One set bit of the sprite: collision if the cell is lit, then the toggle. -/
def drawPixel (d : Drawing) (x : Fin 64) (y : Fin 32) : Drawing :=
  (Framebuffer.toggle d.1 x y, d.2 || Framebuffer.pixel d.1 x y)

/-- The columns `cs` of a row whose byte is `b`, at `ox` and the row `y`. -/
def drawColumns (ox : Nat) (y : Fin 32) (b : Byte) : List Nat → Drawing → Drawing
  | [], d => d
  | c :: cs, d =>
    drawColumns ox y b cs
      (if spriteBit Config.spriteBitOrder b c then drawPixel d (wrapX (ox + c)) y else d)

/-- The rows of a sprite, the first at `oy + r`; each has the columns 0..7. -/
def drawRows (ox oy : Nat) : Nat → List Byte → Drawing → Drawing
  | _, [], d => d
  | r, b :: rest, d =>
    drawRows ox oy (r + 1) rest (drawColumns ox (wrapY (oy + r)) b (List.range 8) d)

/-- A sprite drawn on `fb` at the origin `(ox, oy)`, which is not reduced first. -/
def drawSprite (fb : Framebuffer) (ox oy : Nat) (sprite : List Byte) : Drawing :=
  drawRows ox oy 0 sprite (fb, false)

end Sys2Proof.Machine
end

