-- ==== Sys2Proof/Machine/Flags.lean ====
section
/-! DEFINITION. What the flag-writing instructions put in VF (spec/10_state.md R22). -/

namespace Sys2Proof.Machine

/-- A condition as a flag value, 1 or 0. -/
def flag (c : Bool) : Byte := if c then 1 else 0

/-- "carry?1:0": the true sum exceeds 255 (R120, R127). -/
def carryFlag (a b : Byte) : Byte := flag (a.toNat + b.toNat > 255)

/-- "borrow?0:1": 0 when the subtrahend is greater than the minuend (R120, R128, R130). -/
def noBorrowFlag (minuend subtrahend : Byte) : Byte := flag (!(minuend.toNat < subtrahend.toNat))

/-- "reg[x] & 1" (R129). -/
def lowBitFlag (a : Byte) : Byte := a &&& 1

/-- "reg[x] >> 7" (R131). -/
def highBitFlag (a : Byte) : Byte := a >>> 7

end Sys2Proof.Machine
end

