-- ==== Sys2Proof/Machine/Alu.lean ====
section
/-! DEFINITION. Register loads, arithmetic, logic, shifts and random (spec/43_alu.md). Arithmetic is on
8-bit values and wraps (R120). Where a flag is produced the two writes are made in the order of R133
(decision D2, log 5). -/

namespace Sys2Proof.Machine

/-- LD_IMM `6xkk` (R121): `V[x] <- kk`. -/
def execLdImm (x : Reg) (kk : Byte) (s : State) : Result := .next (s.setV x kk)

/-- ADD_IMM `7xkk` (R122): `V[x] <- (V[x] + kk) mod 256`, no flag. -/
def execAddImm (x : Reg) (kk : Byte) (s : State) : Result := .next (s.setV x (s.getV x + kk))

/-- LD_REG `8xy0` (R123): `V[x] <- V[y]`. -/
def execLdReg (x y : Reg) (s : State) : Result := .next (s.setV x (s.getV y))

/-- OR `8xy1` (R124); VF unchanged. -/
def execOr (x y : Reg) (s : State) : Result := .next (s.setV x (s.getV x ||| s.getV y))

/-- AND `8xy2` (R125); VF unchanged. -/
def execAnd (x y : Reg) (s : State) : Result := .next (s.setV x (s.getV x &&& s.getV y))

/-- XOR `8xy3` (R126); VF unchanged. -/
def execXor (x y : Reg) (s : State) : Result := .next (s.setV x (s.getV x ^^^ s.getV y))

/-- A result into `V[x]` and then a flag into VF, both computed from the old values (R133). -/
def resultThenFlag (x : Reg) (result f : Byte) (s : State) : Result :=
  .next ((s.setV x result).setV regF f)

/-- ADD_REG `8xy4` (R127). -/
def execAddReg (x y : Reg) (s : State) : Result :=
  resultThenFlag x (s.getV x + s.getV y) (carryFlag (s.getV x) (s.getV y)) s

/-- SUB `8xy5` (R128): `V[x] - V[y]`. -/
def execSub (x y : Reg) (s : State) : Result :=
  resultThenFlag x (s.getV x - s.getV y) (noBorrowFlag (s.getV x) (s.getV y)) s

/-- SUBN `8xy7` (R130): `V[y] - V[x]`, into `V[x]`. -/
def execSubn (x y : Reg) (s : State) : Result :=
  resultThenFlag x (s.getV y - s.getV x) (noBorrowFlag (s.getV y) (s.getV x)) s

/-- A flag into VF, and then `V[x]`, read again, through `op` (R133). -/
def flagThenShift (x : Reg) (f : Byte) (op : Byte → Byte) (s : State) : Result :=
  let t := s.setV regF f
  .next (t.setV x (op (t.getV x)))

/-- SHR `8x_6` (R129); the nibble n3 is ignored (R77). -/
def execShr (x : Reg) (s : State) : Result :=
  flagThenShift x (lowBitFlag (s.getV x)) (fun b => b >>> 1) s

/-- SHL `8x_E` (R131); the nibble n3 is ignored (R77). -/
def execShl (x : Reg) (s : State) : Result :=
  flagThenShift x (highBitFlag (s.getV x)) (fun b => b <<< 1) s

/-- RND on the draw `r` (R132): `V[x] <- r & kk`. -/
def rndWith (r : Byte) (x : Reg) (kk : Byte) (s : State) : State := s.setV x (r &&& kk)

/-- RND `Cxkk` (R132): the draw is the next free value of RAND, and one is consumed (R183, log 9). -/
def execRnd (x : Reg) (kk : Byte) (s : State) : Result :=
  .next (rndWith (Config.randByte s.draws) x kk s.countDraw)

end Sys2Proof.Machine
end

