-- ==== Sys2Proof/Machine/ControlFlow.lean ====
section
/-! DEFINITION. NOP and the control transfers (spec/40_step_cycle.md R95, spec/41_control_flow.md). As in
every family, a meaning is the execute phase of a STEP: its state is the one after the fetch, where `pc`
is the instruction's address plus 2 (R23, log 21). -/

namespace Sys2Proof.Machine

/-- NOP `0000` (R95): "no state change". -/
def execNop (s : State) : Result := .next s

/-- RET `00EE` (R102): `pc <- Pop()`. -/
def execRet (s : State) : Result :=
  match s.pop with
  | some (w, t) => .next (t.setPc w)
  | none => raise .stackUnderflow .ret s

/-- JP `1nnn` (R103): `pc <- zext_16(nnn)`. -/
def execJp (nnn : Addr12) (s : State) : Result := .next (s.setPc (zextAddr nnn))

/-- CALL `2nnn` (R104): `Push(pc); pc <- zext_16(nnn)`. -/
def execCall (nnn : Addr12) (s : State) : Result :=
  match s.push s.pc with
  | some t => .next (t.setPc (zextAddr nnn))
  | none => raise .stackOverflow (.call nnn) s

/-- JP_V0 `Bnnn` (R105): `pc <- zext_16(nnn) + zext_16(V[0])`, not reduced to 12 bits. -/
def execJpV0 (nnn : Addr12) (s : State) : Result :=
  .next (s.setPc (zextAddr nnn + zextByte (s.getV reg0)))

end Sys2Proof.Machine
end

