-- ==== Sys2Proof/Machine/Display.lean ====
section
/-! DEFINITION. The framebuffer instructions (spec/45_display.md). -/

namespace Sys2Proof.Machine

/-- CLS `00E0` (R150): "framebuffer := all false". -/
def execCls (s : State) : Result := .next (s.setFb Framebuffer.blank)

/-- DRW `Dxyn` (R151): the origin is read first, then the `n` rows from `I` up, or MEM_OOB; VF is
written last, with every draw. -/
def execDrw (x y : Reg) (n : Fin 16) (s : State) : Result :=
  match s.mem.load s.i.toNat n.val with
  | some sprite =>
    let d := drawSprite s.fb (s.getV x).toNat (s.getV y).toNat sprite
    .next ((s.setFb d.1).setV regF (flag d.2))
  | none => raise .memOob (.drw x y n) s

end Sys2Proof.Machine
end

