-- ==== Sys2Proof/Machine/IndexMemory.lean ====
section
/-! DEFINITION. The index register and the memory instructions (spec/44_index_memory.md). No memory access
changes `I`. -/

namespace Sys2Proof.Machine

/-- LD_I `Annn` (R140): `I <- zext_16(nnn)`. -/
def execLdI (nnn : Addr12) (s : State) : Result := .next (s.setI (zextAddr nnn))

/-- ADD_I `Fx1E` (R141): `I <- (I + V[x]) mod 2^16`, no flag. -/
def execAddI (x : Reg) (s : State) : Result := .next (s.setI (s.i + zextByte (s.getV x)))

/-- LD_F `Fx29` (R142): `I <- V[x] * 5`. -/
def execLdF (x : Reg) (s : State) : Result := .next (s.setI (glyphAddr (s.getV x)))

/-- Bytes stored from `I` upward by the instruction `i`, all or MEM_OOB (R59). -/
def storeAtI (bytes : List Byte) (i : Instr) (s : State) : Result :=
  match s.mem.store s.i.toNat bytes with
  | some m => .next (s.setMem m)
  | none => raise .memOob i s

/-- LD_B `Fx33` (R143): the decimal digits of `V[x]` to `I`, `I+1`, `I+2`. -/
def execLdB (x : Reg) (s : State) : Result := storeAtI (bcdDigits (s.getV x)) (.ldB x) s

/-- ST_REGS `Fx55` (R144): V0..Vx to `I`..`I+x`. -/
def execStRegs (x : Reg) (s : State) : Result := storeAtI (regsUpTo s.v x) (.stRegs x) s

/-- LD_REGS `Fx65` (R145): V0..Vx from `I`..`I+x`. -/
def execLdRegs (x : Reg) (s : State) : Result :=
  match s.mem.load s.i.toNat (x.val + 1) with
  | some bytes => .next (s.setVs (loadRegsFrom s.v 0 bytes))
  | none => raise .memOob (.ldRegs x) s

end Sys2Proof.Machine
end

