-- ==== Sys2Proof/Machine/Skips.lean ====
section
/-! DEFINITION. The conditional skips on register values (spec/42_skips.md). -/

namespace Sys2Proof.Machine

/-- "if c: pc += 2". -/
def skipIf (c : Bool) (s : State) : Result := .next (if c then s.skip else s)

/-- SE_IMM `3xkk` (R110). -/
def execSeImm (x : Reg) (kk : Byte) (s : State) : Result := skipIf (s.getV x == kk) s

/-- SNE_IMM `4xkk` (R111). -/
def execSneImm (x : Reg) (kk : Byte) (s : State) : Result := skipIf (s.getV x != kk) s

/-- SE_REG `5xy0` (R112). -/
def execSeReg (x y : Reg) (s : State) : Result := skipIf (s.getV x == s.getV y) s

/-- SNE_REG `9xy0` (R113). -/
def execSneReg (x y : Reg) (s : State) : Result := skipIf (s.getV x != s.getV y) s

end Sys2Proof.Machine
end

