-- ==== Sys2Proof/Machine/KeysTimers.lean ====
section
/-! DEFINITION. The key and timer instructions (spec/46_keys_timers.md). -/

namespace Sys2Proof.Machine

/-- Skip when the key `V[x]` is in the state `down`; KEY_INDEX_OOB by the instruction `i` when there is
no such key (R160, R161). -/
def skipIfKey (down : Bool) (x : Reg) (i : Instr) (s : State) : Result :=
  match keyIndex (s.getV x) with
  | some k => skipIf (s.key.get k == down) s
  | none => raise .keyIndexOob i s

/-- SKP `Ex9E` (R160). -/
def execSkp (x : Reg) (s : State) : Result := skipIfKey true x (.skp x) s

/-- SKNP `ExA1` (R161). -/
def execSknp (x : Reg) (s : State) : Result := skipIfKey false x (.sknp x) s

/-- LD_K `Fx0A` (R162): the highest held key into `V[x]`; with none held, `pc` back to this
instruction. -/
def execLdK (x : Reg) (s : State) : Result :=
  match heldKey s.key with
  | some k => .next (s.setV x (keyByte k))
  | none => .next s.rewind

/-- LD_VX_DT `Fx07` (R163): `V[x] <- DT`. -/
def execLdVxDt (x : Reg) (s : State) : Result := .next (s.setV x s.dt)

/-- LD_DT_VX `Fx15` (R164): `DT <- V[x]`. -/
def execLdDtVx (x : Reg) (s : State) : Result := .next (s.setDt (s.getV x))

/-- LD_ST_VX `Fx18` (R165): `ST <- V[x]`. -/
def execLdStVx (x : Reg) (s : State) : Result := .next (s.setSt (s.getV x))

end Sys2Proof.Machine
end

