-- ==== Sys2Proof/Machine/Step.lean ====
section
/-! DEFINITION. The STEP operation (spec/40_step_cycle.md R90 to R94). -/

namespace Sys2Proof.Machine

/-- STEP: nothing on a halted machine (R94; decision D6, log 6); otherwise fetch, decode, execute. A
fetch outside memory or an undefined opcode takes its fault before `pc` has moved (R90, R93); a fault of
the instruction itself is taken by its meaning. -/
def step (s : State) : Host.Outcome State Fault Refusal :=
  if s.fault.valid then .next s
  else
    match s.fetch with
    | none => .next (s.takeFault .fetchOob 0 s.pc)
    | some op =>
      match decodeWord op with
      | none => .next (s.takeFault .undefinedOpcode op s.pc)
      | some i => exec i s.advance

/-- Where the next instruction will be fetched from: `pc`, or the load address when `pc` is at no
fetchable address (log 18). -/
def State.fetchablePc (s : State) : Word :=
  if s.pc.toNat + 1 > 4095 then BitVec.ofNat 16 Config.loadAddr else s.pc

/-- `s` with an instruction word stored where STEP fetches next, high byte first (R55), and nothing in
the way of the fetch: a halt is cleared and an unfetchable `pc` is put at the load address (log 18).
From State.reset only the two bytes at 0x200 change. This stands for the LOAD_PROGRAM of R202
(log 17). -/
def State.withFetchWord (s : State) (nbits w : Nat) : State :=
  let op : Word := BitVec.ofNat 16 (w % 2 ^ nbits)
  let a := s.fetchablePc
  { s with
    mem := s.mem.setBytes a.toNat [highByte op, lowByte op]
    pc := a
    fault := if s.fault.valid then .clear else s.fault }

end Sys2Proof.Machine
end

