-- ==== Sys2Proof/Machine/HostOps.lean ====
section
/-! DEFINITION. The host's operations other than STEP, its views, and a run as the host's sequence of
operations (spec/10_state.md R35, R36; spec/60_exceptions.md R178 to R182; spec/70_reset_and_hazards.md
R200 to R202). -/

namespace Sys2Proof.Machine

/-- "decrements ... by 1 if nonzero" (R178). -/
def countDown (b : Byte) : Byte := if b = 0 then 0 else b - 1

/-- TIMER_TICK (R178): the next state and `tone_end`, sampled before the decrement (R179, decision D10,
log 14). A halted machine does not tick (R174). -/
def timerTick (s : State) : State × Bool :=
  if s.fault.valid then (s, false)
  else ((s.setDt (countDown s.dt)).setSt (countDown s.st), s.st == 1)

/-- SET_KEY (R181): `KEY[index] <- pressed`. -/
def setKey (index : Fin 16) (pressed : Bool) (s : State) : State :=
  if s.fault.valid then s else s.setKeys (s.key.set index pressed)

/-- LOAD_PROGRAM (R202; decision D15, log 13): the bytes to 0x200 upward and nothing else, or
LOAD_CAPACITY with nothing written. -/
def loadProgram (bytes : List Byte) (s : State) : State :=
  if s.fault.valid then s
  else if programFits bytes then s.setMem (s.mem.setBytes Config.loadAddr bytes)
  else s.takeFault .loadCapacity 0 (BitVec.ofNat 16 Config.loadAddr)

/-- The host's operations (R35); construction yields State.reset (R201). -/
inductive HostOp where
  | reset
  | loadProgram (bytes : List Byte)
  | step
  | timerTick
  | setKey (index : Fin 16) (pressed : Bool)
  deriving DecidableEq, Repr

/-- One operation, whole and alone (R5, R211). -/
def runOp (op : HostOp) (s : State) : Result :=
  match op with
  | .reset => .next s.resetOp
  | .loadProgram bytes => .next (loadProgram bytes s)
  | .step => step s
  | .timerTick => .next (timerTick s).1
  | .setKey index pressed => .next (setKey index pressed s)

/-- An execution: "a sequence of operations chosen by the host" (R5), the parameter SCHEDULE (R8, D14,
log 12). -/
def runSchedule : List HostOp → State → Result
  | [], s => .next s
  | op :: rest, s =>
    match runOp op s with
    | .next t => runSchedule rest t
    | .fault r => .fault r
    | .refused r => .refused r

/-- The framebuffer view (R182). -/
def framebufferView (s : State) : Framebuffer := s.fb

/-- `sound_active` (R36, R180; decision D10, log 14). -/
def soundActive (s : State) : Bool := s.st != 0

end Sys2Proof.Machine
end

