-- ==== Sys2Proof/Safety.lean ====
section
/-! DEFINITION. The words the claims are stated in: halted and running states, the invariant of the
machine, and what "changes only" means of two states. -/

namespace Sys2Proof.Machine

/-- The machine is halted by a fatal error. "A model should treat a halted state as never final"
(spec/60_exceptions.md R175): a claim that something runs correctly has `Halted` false before and after. -/
def State.Halted (s : State) : Prop := s.fault.valid = true

/-- An operation succeeded: it answered a next state that is not halted (R175). -/
def Succeeds (r : Result) (t : State) : Prop := r = .next t ∧ ¬ t.Halted

/-- `FAULT` is coherent (R33, R171): clear when no fault is recorded, a cause of R171 when one is. -/
def FaultRecord.Coherent (f : FaultRecord) : Prop :=
  (f.valid = false → f = .clear) ∧ (f.valid = true → f.cause ≠ .none)

/-- The invariant of the machine: memory in canonical form; `pc` in 0..0x10FE and every live stack entry
at most 4096 (spec/10_state.md R24); `FAULT` coherent. -/
structure State.Inv (s : State) : Prop where
  memCanonical : s.mem.wf = true
  pcBound : s.pc.toNat ≤ 0x10FE
  liveEntries : ∀ k : Fin 16, k.val < s.sp.val → (s.stack.get k).toNat ≤ 4096
  faultCoherent : s.fault.Coherent

/-- `t` is `s` but for `pc`. -/
def OnlyPc (s t : State) : Prop := t = s.setPc t.pc

/-- `t` is `s` but for the register file, and there only the registers in `xs` may differ. -/
def OnlyRegs (xs : List Reg) (s t : State) : Prop :=
  t = s.setVs t.v ∧ ∀ k : Reg, k ∉ xs → t.getV k = s.getV k

/-- The pixel `(x, y)` is covered by a set bit of the sprite drawn at the origin `(ox, oy)`: row `r`,
column `c` of the sprite lands on it (spec/45_display.md R151, R152 at the default order). -/
def Covers (ox oy : Nat) (sprite : List Byte) (x : Fin 64) (y : Fin 32) : Prop :=
  ∃ r c : Nat, r < sprite.length ∧ c < 8 ∧ (sprite.getD r 0).getLsbD (7 - c) = true ∧
    (ox + c) % 64 = x.val ∧ (oy + r) % 32 = y.val

/-- A fault of the instruction `i` taken from its execute phase `s` (R90, R93, R172): the record holds the
cause, the instruction's word and its address `pc - 2`; `pc` is that address again; all else is as in
`s`. -/
def TakesFault (c : Cause) (i : Instr) (s t : State) : Prop :=
  t = (s.setPc (s.pc - 2)).setFault
    { valid := true, cause := c, opcode := encode i, addr := s.pc - 2 }

/-- The instruction the next STEP would execute, if it fetches and decodes one (R91, R92). -/
def State.nextInstr (s : State) : Option Instr := s.fetch.bind decodeWord

/-- The condition column of spec/60_exceptions.md R171, for the causes a STEP can raise: `s` is the state
before the STEP. -/
def StepRaises (s : State) : Cause → Prop
  | .none => False
  | .fetchOob => 4095 < s.pc.toNat + 1
  | .undefinedOpcode => ∃ op, s.fetch = some op ∧ decodeWord op = none
  | .stackOverflow => ∃ nnn, s.nextInstr = some (.call nnn) ∧ s.sp.val = 16
  | .stackUnderflow => s.nextInstr = some .ret ∧ s.sp.val = 0
  | .memOob =>
    (∃ x, s.nextInstr = some (.ldB x) ∧ 4095 < s.i.toNat + 2) ∨
    (∃ x, (s.nextInstr = some (.stRegs x) ∨ s.nextInstr = some (.ldRegs x)) ∧
      4095 < s.i.toNat + x.val) ∨
    (∃ x y n, s.nextInstr = some (.drw x y n) ∧ 0 < n.val ∧ 4095 < s.i.toNat + n.val - 1)
  | .keyIndexOob => ∃ x, (s.nextInstr = some (.skp x) ∨ s.nextInstr = some (.sknp x)) ∧
      15 < (s.getV x).toNat
  | .loadCapacity => False

/-- Where `pc` is after a completed STEP on the instruction `i` at address `pc` of `s` (spec/
40_step_cycle.md R96): `a + 2` but for the control transfers, a taken skip (`a + 4`) and LD_K with no key
held (`a`). -/
def pcAfter (i : Instr) (s : State) : Nat :=
  let a := s.pc.toNat
  match i with
  | .ret => (s.stack.toList.getD (s.sp.val - 1) 0).toNat
  | .jp nnn => nnn.toNat
  | .call nnn => nnn.toNat
  | .jpV0 nnn => nnn.toNat + (s.getV 0).toNat
  | .seImm x kk => if s.getV x = kk then a + 4 else a + 2
  | .sneImm x kk => if s.getV x ≠ kk then a + 4 else a + 2
  | .seReg x y => if s.getV x = s.getV y then a + 4 else a + 2
  | .sneReg x y => if s.getV x ≠ s.getV y then a + 4 else a + 2
  | .skp x => if s.key.toList.getD (s.getV x).toNat false = true then a + 4 else a + 2
  | .sknp x => if s.key.toList.getD (s.getV x).toNat false = false then a + 4 else a + 2
  | .ldK _ => if ∀ k : Fin 16, s.key.get k = false then a else a + 2
  | _ => a + 2

/-- The instructions that may change VF (spec/10_state.md R22): the six flag writers, and any other
whose named destination it is. -/
def MayWriteVF : Instr → Prop
  | .addReg _ _ | .sub _ _ | .shr _ _ | .subn _ _ | .shl _ _ | .drw _ _ _ => True
  | .ldImm x _ | .addImm x _ | .ldReg x _ | .or x _ | .and x _ | .xor x _ | .rnd x _ => x = regF
  | .ldVxDt x | .ldK x | .ldRegs x => x = regF
  | _ => False

/-- The registers an instruction may change: the row `V[i]` of spec/10_state.md R41, register by register
from the instructions' own rules (the named destination, VF for the flag writers, V0..Vx for LD_REGS). -/
def MayWriteV (i : Instr) (k : Reg) : Prop :=
  match i with
  | .ldImm x _ | .addImm x _ | .rnd x _ => k = x
  | .ldReg x _ | .or x _ | .and x _ | .xor x _ => k = x
  | .addReg x _ | .sub x _ | .shr x _ | .subn x _ | .shl x _ => k = x ∨ k = regF
  | .drw _ _ _ => k = regF
  | .ldVxDt x | .ldK x => k = x
  | .ldRegs x => k ≤ x
  | .nop | .cls | .ret | .jp _ | .call _ | .jpV0 _ => False
  | .seImm _ _ | .sneImm _ _ | .seReg _ _ | .sneReg _ _ | .skp _ | .sknp _ => False
  | .ldI _ | .addI _ | .ldF _ | .ldB _ | .stRegs _ | .ldDtVx _ | .ldStVx _ => False

/-- The instructions that write `pc` beside the fetch: the row `pc` of spec/10_state.md R41. -/
def MovesPc : Instr → Prop
  | .ret | .jp _ | .call _ | .jpV0 _ | .ldK _ => True
  | .seImm _ _ | .sneImm _ _ | .seReg _ _ | .sneReg _ _ | .skp _ | .sknp _ => True
  | .nop | .cls | .drw _ _ _ | .rnd _ _ => False
  | .ldImm _ _ | .addImm _ _ | .ldReg _ _ | .or _ _ | .and _ _ | .xor _ _ => False
  | .addReg _ _ | .sub _ _ | .shr _ _ | .subn _ _ | .shl _ _ => False
  | .ldI _ | .addI _ | .ldF _ | .ldB _ | .stRegs _ | .ldRegs _ => False
  | .ldVxDt _ | .ldDtVx _ | .ldStVx _ => False

end Sys2Proof.Machine
end

