-- ==== Sys2Proof/Certificates/Slice0/Obligations.lean ====
section
/-! DEFINITION. The statements for the provers. A statement whose basis is 'derived' and that rests on a
decision of the spec (spec/92_eei_decisions.md) or on a choice of the model names it and its log entry. -/

open Sys2Proof Sys2Proof.Machine

/-- For every instruction i, with every operand at every value its field admits, the decoder applied
to encode i gives i; and applied to i's two bytes followed by any bytes it gives i and leaves
those bytes. [R70, R71, R72, R74, R75] That SHR and SHL carry the ignored nibble is the model's
choice (log 15). -/
def Obligations.DecodeOfEncode : Prop :=
  ∀ i : Instr, decodeWord (encode i) = some i ∧
    ∀ rest : List Byte, decode (encodeBytes i ++ rest) = .ok (i, rest)

/-- For every 16-bit word op, if the decoder gives the instruction i for it then encode i is op. So no
bit of a defined word is dropped. [R70, R71, R74] For the shifts this holds because the model's
SHR and SHL carry the nibble that R77 says is ignored: the model's DESIGN CHOICE (log 15), no rule
of the spec. -/
def Obligations.EncodeOfDecode : Prop :=
  ∀ (op : Word) (i : Instr), decodeWord op = some i → encode i = op

/-- For every word op and every row m of the opcode table, (op AND mask of m) equals the match of m
exactly when the decoder gives an instruction of that row; and no word is selected by two rows.
[R74, R75, R92] -/
def Obligations.DispatchFollowsTheOpcodeTable : Prop :=
  (∀ (op : Word) (m : Mnemonic),
    op &&& m.mask = m.pattern ↔ ∃ i, decodeWord op = some i ∧ i.mnemonic = m) ∧
  ∀ (op : Word) (m m' : Mnemonic),
    op &&& m.mask = m.pattern → op &&& m'.mask = m'.pattern → m = m'

/-- For every word op: the decoder refuses op exactly when op is 0nnn other than 0x0000, 0x00E0,
0x00EE; or 5xyN or 9xyN with N not 0; or 8xyN with N in 8, 9, A, B, C, D, F; or Exkk with kk not
9E or A1; or Fxkk with kk not one of the nine. The counts of R76 are not stated. [R76] -/
def Obligations.UndefinedWordsByMajorNibble : Prop :=
  ∀ op : Word, decodeWord op = none ↔
    (op.toNat / 4096 = 0x0 ∧ op.toNat ∉ [0x0000, 0x00E0, 0x00EE]) ∨
    ((op.toNat / 4096 = 0x5 ∨ op.toNat / 4096 = 0x9) ∧ op.toNat % 16 ≠ 0) ∨
    (op.toNat / 4096 = 0x8 ∧ op.toNat % 16 ∈ [0x8, 0x9, 0xA, 0xB, 0xC, 0xD, 0xF]) ∨
    (op.toNat / 4096 = 0xE ∧ op.toNat % 256 ∉ [0x9E, 0xA1]) ∨
    (op.toNat / 4096 = 0xF ∧
      op.toNat % 256 ∉ [0x07, 0x0A, 0x15, 0x18, 0x1E, 0x29, 0x33, 0x55, 0x65])

/-- The words 0x00EE, 0x1204, 0x2ABC, 0x7305, 0x83A6, 0xA300, 0xCF0F, 0xD012, 0xE19E and 0xF265 decode
to RET, JP 0x204, CALL 0xABC, ADD_IMM V3 0x05, SHR V3 (ignored nibble A), LD_I 0x300, RND VF 0x0F,
DRW V0 V1 2, SKP V1 and LD_REGS V2. [R75] That SHR and SHL carry the ignored nibble is the model's
choice (log 15). -/
def Obligations.SampleWordsDecode : Prop :=
  decodeWord 0x00EE = some .ret ∧ decodeWord 0x1204 = some (.jp 0x204) ∧
  decodeWord 0x2ABC = some (.call 0xABC) ∧ decodeWord 0x7305 = some (.addImm 3 0x05) ∧
  decodeWord 0x83A6 = some (.shr 3 0xA) ∧ decodeWord 0xA300 = some (.ldI 0x300) ∧
  decodeWord 0xCF0F = some (.rnd 15 0x0F) ∧ decodeWord 0xD012 = some (.drw 0 1 2) ∧
  decodeWord 0xE19E = some (.skp 1) ∧ decodeWord 0xF265 = some (.ldRegs 2)

/-- Every instruction is well formed as written. For every instruction other than SHR and SHL,
assembling the line that writes it gives the bytes of its encoding; for SHR and SHL the bytes are
those of the same shift with the ignored nibble 0. [R80, R81, R75] The syntax is the spec's
decision D12 (log 19). That SHR and SHL carry the ignored nibble is the model's choice (log 15). -/
def Obligations.AssembledLineIsTheEncoding : Prop :=
  (∀ i : Instr, i.wf = true) ∧
  (∀ i : Instr, (∀ x k, i ≠ .shr x k) → (∀ x k, i ≠ .shl x k) →
    assemble i.toAsm = some (encodeBytes i)) ∧
  ∀ x k, assemble (Instr.shr x k).toAsm = some (encodeBytes (.shr x 0)) ∧
    assemble (Instr.shl x k).toAsm = some (encodeBytes (.shl x 0))

/-- After reset pc is 0x200; every V register, I, SP, every stack slot, DT and ST are 0; every pixel
is unlit and every key released; byte 5d + r of memory is row r of glyph d of FONT and every byte
from 0x050 up is 0; FAULT is clear. [R40, R51, R201] I, STACK and FAULT are the spec's decisions
D11, D4 and D5 (logs 10, 4, 2); FONT's bytes are PRESUMED (log 8), and the statement names the
table, not its bytes. -/
def Obligations.ResetStateValues : Prop :=
  State.reset.pc.toNat = 0x200 ∧ (∀ x, State.reset.getV x = 0) ∧ State.reset.i = 0 ∧
  State.reset.sp.val = 0 ∧ (∀ k, State.reset.stack.get k = 0) ∧ State.reset.dt = 0 ∧
  State.reset.st = 0 ∧ (∀ x y, Framebuffer.pixel State.reset.fb x y = false) ∧
  (∀ k, State.reset.key.get k = false) ∧
  (∀ d r : Nat, d < 16 → r < 5 →
    State.reset.mem.get (5 * d + r) = (Config.glyphs.getD d []).getD r 0) ∧
  (∀ a : Nat, 0x050 ≤ a → State.reset.mem.get a = 0) ∧
  State.reset.fault = { valid := false, cause := .none, opcode := 0, addr := 0 }

/-- For every state s and every list of host operations, the run of the list followed by RESET ends in
the state after reset, but for the model's own count of draws. So RESET erases the program,
restores the font and ends a halt. [R200, R201, R175] The count of draws, a field of the model's
own that RESET leaves running, is the model's choice (log 9). -/
def Obligations.ResetRestoresTheConstructedState : Prop :=
  ∀ (ops : List HostOp) (s : State), ∃ n : Nat,
    runSchedule (ops ++ [.reset]) s = .next { State.reset with draws := n }

/-- For every instruction and state exec answers a next state; so does every STEP; so does every list
of host operations from every state. A fatal error is a next state with FAULT latched; nothing is
refused. [R14, R170, R177] That a fault is a next state is the model's choice between the two that
R93 allows (log 1). -/
def Obligations.EveryOperationCompletes : Prop :=
  (∀ (i : Instr) (s : State), ∃ t, exec i s = .next t) ∧
  (∀ s : State, ∃ t, step s = .next t) ∧
  ∀ (ops : List HostOp) (s : State), ∃ t, runSchedule ops s = .next t

/-- For every state s that is not halted with pc + 1 at most 4095: if the two bytes at pc decode to i
with nothing left over, STEP at s is exec of i at s with pc advanced by 2. [R90, R91, R92] -/
def Obligations.StepRunsTheDecodedInstruction : Prop :=
  ∀ (s : State) (i : Instr), ¬ s.Halted → s.pc.toNat + 1 ≤ 4095 →
    decode [s.mem.get s.pc.toNat, s.mem.get (s.pc.toNat + 1)] = .ok (i, []) →
    step s = exec i (s.setPc (s.pc + 2))

/-- For every state s that is not halted with pc + 1 above 4095, STEP answers s with FAULT = (valid,
FETCH_OOB, opcode 0, address pc) and nothing else changed. [R91, R171, R93] The record is the
spec's decision D5 (log 2). -/
def Obligations.FetchBeyondMemoryFaults : Prop :=
  ∀ s : State, ¬ s.Halted → 4095 < s.pc.toNat + 1 →
    step s = .next (s.setFault { valid := true, cause := .fetchOob, opcode := 0, addr := s.pc })

/-- For every state s that is not halted with pc + 1 at most 4095: if the two bytes at pc form the
word op and op decodes to nothing, STEP answers s with FAULT = (valid, UNDEFINED_OPCODE, op,
address pc) and nothing else changed. [R76, R92, R171, R93] The record is the spec's decision D5
(log 2). -/
def Obligations.UndefinedOpcodeFaults : Prop :=
  ∀ (s : State) (op : Word), ¬ s.Halted → s.pc.toNat + 1 ≤ 4095 →
    op.toNat = (s.mem.get s.pc.toNat).toNat * 256 + (s.mem.get (s.pc.toNat + 1)).toNat →
    decodeWord op = none →
    step s = .next
      (s.setFault { valid := true, cause := .undefinedOpcode, opcode := op, addr := s.pc })

/-- For every halted state s and every list of host operations that does not contain RESET, the run
ends in s itself, and a TIMER_TICK of s answers tone_end = 0. [R94, R174, R175] The halted machine
is the spec's decision D6 (log 6). -/
def Obligations.HaltIsFinalUntilReset : Prop :=
  ∀ (ops : List HostOp) (s : State), s.Halted → HostOp.reset ∉ ops →
    runSchedule ops s = .next s ∧ timerTick s = (s, false)

/-- For every state s that is not halted and every t that STEP answers: if t is halted then t is s but
for FAULT, FAULT.addr is the pc of s, FAULT.opcode is the word fetched at s (0 if none could be
fetched), and the cause is one a STEP can raise. [R93, R170, R172, R174] The roll-back and the
record are the spec's decision D5 (log 2). -/
def Obligations.FaultingStepChangesOnlyTheRecord : Prop :=
  ∀ s t : State, ¬ s.Halted → step s = .next t → t.Halted →
    t = s.setFault t.fault ∧ t.fault.addr = s.pc ∧ t.fault.opcode = s.fetch.getD 0 ∧
    t.fault.cause ≠ .none ∧ t.fault.cause ≠ .loadCapacity

/-- For every state s that is not halted, every t that STEP answers and every cause c other than none:
t is halted with the cause c exactly when the condition of c in R171's table holds of s. [R171,
R173] The causes are the spec's decisions D5 and D3 (logs 2, 3). -/
def Obligations.FaultsExactlyUnderTheirConditions : Prop :=
  ∀ (s t : State) (c : Cause), ¬ s.Halted → step s = .next t → c ≠ .none →
    ((t.Halted ∧ t.fault.cause = c) ↔ StepRaises s c)

/-- For every state s that is not halted whose next instruction is i at address a = pc: if STEP
answers a state t that is not halted, then pc of t is a + 2, but for RET (the popped entry), JP
and CALL (nnn), JP_V0 (nnn + V0), a taken skip (a + 4) and LD_K with no key held (a). [R96, R23,
R24, R26] That RET's popped entry is the one in slot SP - 1 is the spec's decision D4 (R26, log
4). -/
def Obligations.CompletedStepMovesPc : Prop :=
  ∀ (s t : State) (i : Instr), ¬ s.Halted → s.nextInstr = some i → step s = .next t →
    ¬ t.Halted → t.pc.toNat = pcAfter i s

/-- For every instruction i, state s and t that exec answers: memory differs only if i is LD_B or
ST_REGS; pc (after the fetch's advance) only for RET, JP, CALL, JP_V0, the four register skips,
SKP, SKNP, LD_K, or where i takes a fault; a register Vk only where i names Vk as its destination,
where Vk is VF and i is a flag writer, or where i is LD_REGS and k is at most x; I only for LD_I,
ADD_I, LD_F; STACK only for CALL; SP only for CALL and RET; DT only for LD_DT_VX; ST only for
LD_ST_VX; the framebuffer only for CLS and DRW; the keys never; FAULT only for the instructions
that can fault; the count of draws only for RND. [R41, R153, R22, R28, R29, R31] FAULT, its
latching and the pc of a fault are the spec's decision D5 (log 2), the faults of SKP and SKNP its
decision D3 (log 3); the count of draws is the model's own (log 9). -/
def Obligations.OnlyNamedInstructionsWrite : Prop :=
  ∀ (i : Instr) (s t : State), exec i s = .next t →
    (t.mem ≠ s.mem → (∃ x, i = .ldB x) ∨ ∃ x, i = .stRegs x) ∧
    (t.pc ≠ s.pc → MovesPc i ∨ ∃ c, TakesFault c i s t) ∧
    (∀ k : Reg, t.getV k ≠ s.getV k → MayWriteV i k) ∧
    (t.i ≠ s.i → (∃ a, i = .ldI a) ∨ (∃ x, i = .addI x) ∨ ∃ x, i = .ldF x) ∧
    (t.stack ≠ s.stack → ∃ a, i = .call a) ∧
    (t.sp ≠ s.sp → (∃ a, i = .call a) ∨ i = .ret) ∧
    (t.dt ≠ s.dt → ∃ x, i = .ldDtVx x) ∧
    (t.st ≠ s.st → ∃ x, i = .ldStVx x) ∧
    (t.fb ≠ s.fb → i = .cls ∨ ∃ x y n, i = .drw x y n) ∧
    t.key = s.key ∧
    (t.fault ≠ s.fault → (∃ a, i = .call a) ∨ i = .ret ∨ (∃ x, i = .ldB x) ∨
      (∃ x, i = .stRegs x) ∨ (∃ x, i = .ldRegs x) ∨ (∃ x y n, i = .drw x y n) ∨
      (∃ x, i = .skp x) ∨ ∃ x, i = .sknp x) ∧
    (t.draws ≠ s.draws → ∃ x kk, i = .rnd x kk)

/-- For every instruction i, state s and t that exec answers: if VF differs, then i is ADD_REG, SUB,
SHR, SUBN, SHL or DRW, or VF is the register i names as its destination (for LD_REGS, when x is
15). [R22, R204] -/
def Obligations.OnlyFlagWritersAndDestinationsChangeVF : Prop :=
  ∀ (i : Instr) (s t : State), exec i s = .next t → t.getV regF ≠ s.getV regF → MayWriteVF i

/-- A word decodes to NOP exactly when it is 0x0000, and every word 0nnn other than 0x0000, 0x00E0 and
0x00EE is undefined. For every state exec of NOP answers that state; and for every state that is
not halted whose fetched word is 0, STEP answers the state with pc + 2 and nothing else changed.
[R95] -/
def Obligations.NopOnlyAdvances : Prop :=
  (∀ op : Word, decodeWord op = some .nop ↔ op.toNat = 0x0000) ∧
  (∀ op : Word, op.toNat < 0x1000 → op.toNat ∉ [0x0000, 0x00E0, 0x00EE] →
    decodeWord op = none) ∧
  (∀ s : State, exec .nop s = .next s) ∧
  ∀ s : State, ¬ s.Halted → s.fetch = some 0 → step s = .next (s.setPc (s.pc + 2))

/-- A word decodes to JP nnn exactly when it is 0x1000 + nnn. For every state exec of JP nnn answers a
state with pc = nnn and nothing else changed. A JP at the address it names is a fixed point of
STEP. After JP 0xFFF from a state that is not halted the next STEP takes FETCH_OOB. [R103] That
the fetch's fault latches FAULT is the spec's decision D5 (log 2). -/
def Obligations.JumpSetsPc : Prop :=
  (∀ (op : Word) (nnn : Addr12),
    decodeWord op = some (.jp nnn) ↔ op.toNat = 0x1000 + nnn.toNat) ∧
  (∀ (s : State) (nnn : Addr12), ∃ t, exec (.jp nnn) s = .next t ∧
    t.pc.toNat = nnn.toNat ∧ OnlyPc s t) ∧
  (∀ (s : State) (nnn : Addr12), ¬ s.Halted → s.nextInstr = some (.jp nnn) →
    s.pc.toNat = nnn.toNat → step s = .next s) ∧
  ∀ s t : State, ¬ s.Halted → exec (.jp 0xFFF) s = .next t →
    ∃ u, step t = .next u ∧ u.Halted ∧ u.fault.cause = .fetchOob

/-- A word decodes to JP_V0 nnn exactly when it is 0xB000 + nnn. For every state exec of JP_V0 nnn
answers a state with pc = nnn + V0 as natural numbers (so never reduced) and nothing else changed;
if that is above 4094 and the machine is not halted, the next STEP takes FETCH_OOB. [R105] That
the fetch's fault latches FAULT is the spec's decision D5 (log 2). -/
def Obligations.JumpOffsetAddsV0 : Prop :=
  (∀ (op : Word) (nnn : Addr12),
    decodeWord op = some (.jpV0 nnn) ↔ op.toNat = 0xB000 + nnn.toNat) ∧
  ∀ (s : State) (nnn : Addr12), ∃ t, exec (.jpV0 nnn) s = .next t ∧
    t.pc.toNat = nnn.toNat + (s.getV 0).toNat ∧ OnlyPc s t ∧
    (¬ s.Halted → 4094 < nnn.toNat + (s.getV 0).toNat →
      ∃ u, step t = .next u ∧ u.Halted ∧ u.fault.cause = .fetchOob)

/-- A word decodes to CALL nnn exactly when it is 0x2000 + nnn. For every state with SP below 16, exec
of CALL nnn answers a state with pc = nnn, SP one higher, the old pc in the slot of the old SP,
every other slot as before and nothing else changed. With SP = 16 it takes STACK_OVERFLOW. [R104,
R100, R26, R27] The slot layout is the spec's decision D4 and the fault record D5 (logs 4, 2). -/
def Obligations.CallPushesAndJumps : Prop :=
  (∀ (op : Word) (nnn : Addr12),
    decodeWord op = some (.call nnn) ↔ op.toNat = 0x2000 + nnn.toNat) ∧
  (∀ (s : State) (nnn : Addr12), s.sp.val < 16 → ∃ t, exec (.call nnn) s = .next t ∧
    t.pc.toNat = nnn.toNat ∧ t.sp.val = s.sp.val + 1 ∧
    (∀ k : Fin 16, t.stack.get k = if k.val = s.sp.val then s.pc else s.stack.get k) ∧
    t = (s.setPc t.pc).setStack t.stack t.sp) ∧
  ∀ (s : State) (nnn : Addr12), s.sp.val = 16 → ∃ t, exec (.call nnn) s = .next t ∧
    TakesFault .stackOverflow (.call nnn) s t

/-- A word decodes to RET exactly when it is 0x00EE. For every state with SP above 0, exec of RET
answers a state with SP one lower, pc the entry in the slot of the new SP, every slot as before
and nothing else changed. With SP = 0 it takes STACK_UNDERFLOW. [R102, R101, R26, R27] The slot
layout is the spec's decision D4 and the fault record D5 (logs 4, 2). -/
def Obligations.ReturnPops : Prop :=
  (∀ op : Word, decodeWord op = some .ret ↔ op.toNat = 0x00EE) ∧
  (∀ s : State, 0 < s.sp.val → ∃ t, exec .ret s = .next t ∧
    t.sp.val + 1 = s.sp.val ∧ (∀ k : Fin 16, k.val = t.sp.val → t.pc = s.stack.get k) ∧
    t = (s.setPc t.pc).setStack s.stack t.sp) ∧
  ∀ s : State, s.sp.val = 0 → ∃ t, exec .ret s = .next t ∧
    TakesFault .stackUnderflow .ret s t

/-- For every state s with SP below 16, t that exec of CALL answers and u with the stack and SP of t:
exec of RET at u answers a state whose pc is the pc of s (the address after the CALL) and whose SP
is that of s. [R101, R102, R104] -/
def Obligations.CallThenReturnComesBack : Prop :=
  ∀ (s t u : State) (nnn : Addr12), s.sp.val < 16 → exec (.call nnn) s = .next t →
    u.stack = t.stack → u.sp = t.sp →
    ∃ w, exec .ret u = .next w ∧ w.pc = s.pc ∧ w.sp = s.sp

/-- Words: SE_IMM is 0x3000 + 256x + kk, SNE_IMM 0x4000 + 256x + kk, SE_REG 0x5000 + 256x + 16y,
SNE_REG 0x9000 + 256x + 16y; 5xyN and 9xyN with N not 0 are undefined. For every state in the
execute phase of an instruction at address a (pc = a + 2), exec of each answers a state with pc =
a + 4 if its comparison holds and a + 2 if not, and nothing else changed: no register, no flag, no
memory. [R110, R111, R112, R113] -/
def Obligations.SkipsCompareWholeRegisters : Prop :=
  (∀ (op : Word) (x : Reg) (kk : Byte),
    (decodeWord op = some (.seImm x kk) ↔ op.toNat = 0x3000 + x.val * 256 + kk.toNat) ∧
    (decodeWord op = some (.sneImm x kk) ↔ op.toNat = 0x4000 + x.val * 256 + kk.toNat)) ∧
  (∀ (op : Word) (x y : Reg),
    (decodeWord op = some (.seReg x y) ↔ op.toNat = 0x5000 + x.val * 256 + y.val * 16) ∧
    (decodeWord op = some (.sneReg x y) ↔ op.toNat = 0x9000 + x.val * 256 + y.val * 16)) ∧
  (∀ op : Word, op.toNat / 4096 = 0x5 ∨ op.toNat / 4096 = 0x9 → op.toNat % 16 ≠ 0 →
    decodeWord op = none) ∧
  ∀ (s : State) (a : Word) (x y : Reg) (kk : Byte), s.pc = a + 2 →
    (∃ t, exec (.seImm x kk) s = .next t ∧ OnlyPc s t ∧
      t.pc = if (s.getV x).toNat = kk.toNat then a + 4 else a + 2) ∧
    (∃ t, exec (.sneImm x kk) s = .next t ∧ OnlyPc s t ∧
      t.pc = if (s.getV x).toNat ≠ kk.toNat then a + 4 else a + 2) ∧
    (∃ t, exec (.seReg x y) s = .next t ∧ OnlyPc s t ∧
      t.pc = if (s.getV x).toNat = (s.getV y).toNat then a + 4 else a + 2) ∧
    (∃ t, exec (.sneReg x y) s = .next t ∧ OnlyPc s t ∧
      t.pc = if (s.getV x).toNat ≠ (s.getV y).toNat then a + 4 else a + 2)

/-- Words: LD_IMM is 0x6000 + 256x + kk, ADD_IMM 0x7000 + 256x + kk, LD_REG 0x8000 + 256x + 16y. For
every state exec of each answers a state in which Vx is kk, (Vx + kk) mod 256, or the old Vy, and
nothing else has changed: VF only if it is Vx. [R121, R122, R123] -/
def Obligations.LoadsAndImmediateAdd : Prop :=
  (∀ (op : Word) (x : Reg) (kk : Byte),
    (decodeWord op = some (.ldImm x kk) ↔ op.toNat = 0x6000 + x.val * 256 + kk.toNat) ∧
    (decodeWord op = some (.addImm x kk) ↔ op.toNat = 0x7000 + x.val * 256 + kk.toNat)) ∧
  (∀ (op : Word) (x y : Reg),
    decodeWord op = some (.ldReg x y) ↔ op.toNat = 0x8000 + x.val * 256 + y.val * 16) ∧
  ∀ (s : State) (x y : Reg) (kk : Byte),
    (∃ t, exec (.ldImm x kk) s = .next t ∧ t.getV x = kk ∧ OnlyRegs [x] s t) ∧
    (∃ t, exec (.addImm x kk) s = .next t ∧
      (t.getV x).toNat = ((s.getV x).toNat + kk.toNat) % 256 ∧ OnlyRegs [x] s t) ∧
    (∃ t, exec (.ldReg x y) s = .next t ∧ t.getV x = s.getV y ∧ OnlyRegs [x] s t)

/-- Words: OR is 0x8001 + 256x + 16y, AND 0x8002 + 256x + 16y, XOR 0x8003 + 256x + 16y. For every
state exec of each answers a state in which every bit of Vx is the or, and, exclusive or of the
old bits of Vx and Vy, and nothing else has changed: VF only if it is Vx. [R124, R125, R126] -/
def Obligations.LogicIsBitwiseWithoutFlag : Prop :=
  (∀ (op : Word) (x y : Reg),
    (decodeWord op = some (.or x y) ↔ op.toNat = 0x8001 + x.val * 256 + y.val * 16) ∧
    (decodeWord op = some (.and x y) ↔ op.toNat = 0x8002 + x.val * 256 + y.val * 16) ∧
    (decodeWord op = some (.xor x y) ↔ op.toNat = 0x8003 + x.val * 256 + y.val * 16)) ∧
  ∀ (s : State) (x y : Reg),
    (∃ t, exec (.or x y) s = .next t ∧ OnlyRegs [x] s t ∧ ∀ b, b < 8 →
      (t.getV x).getLsbD b = ((s.getV x).getLsbD b || (s.getV y).getLsbD b)) ∧
    (∃ t, exec (.and x y) s = .next t ∧ OnlyRegs [x] s t ∧ ∀ b, b < 8 →
      (t.getV x).getLsbD b = ((s.getV x).getLsbD b && (s.getV y).getLsbD b)) ∧
    (∃ t, exec (.xor x y) s = .next t ∧ OnlyRegs [x] s t ∧ ∀ b, b < 8 →
      (t.getV x).getLsbD b = ((s.getV x).getLsbD b ^^ (s.getV y).getLsbD b))

/-- A word decodes to ADD_REG exactly when it is 0x8004 + 256x + 16y. For every state exec of ADD_REG
answers a state in which VF is 1 if the sum of the old Vx and Vy exceeds 255 and 0 if not; if x is
not 15, Vx + 256 VF is that sum; and no register but Vx and VF, and nothing else, has changed.
[R127, R133, R120] That the flag wins at x = F is the spec's decision D2 (log 5). -/
def Obligations.AddSplitsTheTrueSum : Prop :=
  (∀ (op : Word) (x y : Reg),
    decodeWord op = some (.addReg x y) ↔ op.toNat = 0x8004 + x.val * 256 + y.val * 16) ∧
  ∀ (s : State) (x y : Reg), ∃ t, exec (.addReg x y) s = .next t ∧
    (t.getV regF).toNat = (if (s.getV x).toNat + (s.getV y).toNat > 255 then 1 else 0) ∧
    (x ≠ regF → (t.getV x).toNat + 256 * (t.getV regF).toNat =
      (s.getV x).toNat + (s.getV y).toNat) ∧
    OnlyRegs [x, regF] s t

/-- Words: SUB is 0x8005 + 256x + 16y, SUBN 0x8007 + 256x + 16y. For every state exec of SUB answers a
state in which VF is 0 if the old Vx is less than the old Vy and 1 if not, and, if x is not 15, Vx
is (Vx - Vy) mod 256; SUBN the same with the operands exchanged, into Vx. No register but Vx and
VF, and nothing else, has changed. [R128, R130, R133, R120] That the flag wins at x = F is the
spec's decision D2 (log 5). -/
def Obligations.SubtractWrapsAndFlagsNoBorrow : Prop :=
  (∀ (op : Word) (x y : Reg),
    (decodeWord op = some (.sub x y) ↔ op.toNat = 0x8005 + x.val * 256 + y.val * 16) ∧
    (decodeWord op = some (.subn x y) ↔ op.toNat = 0x8007 + x.val * 256 + y.val * 16)) ∧
  ∀ (s : State) (x y : Reg),
    (∃ t, exec (.sub x y) s = .next t ∧
      (t.getV regF).toNat = (if (s.getV x).toNat < (s.getV y).toNat then 0 else 1) ∧
      (x ≠ regF → ((t.getV x).toNat : Int) =
        ((s.getV x).toNat - (s.getV y).toNat : Int) % 256) ∧ OnlyRegs [x, regF] s t) ∧
    (∃ t, exec (.subn x y) s = .next t ∧
      (t.getV regF).toNat = (if (s.getV y).toNat < (s.getV x).toNat then 0 else 1) ∧
      (x ≠ regF → ((t.getV x).toNat : Int) =
        ((s.getV y).toNat - (s.getV x).toNat : Int) % 256) ∧ OnlyRegs [x, regF] s t)

/-- Words: SHR is 0x8006 + 256x + 16k and SHL 0x800E + 256x + 16k for every nibble k. For every state
exec of SHR answers a state in which, if x is not 15, VF is the old Vx mod 2 and Vx is its half;
with x = 15 VF ends 0. SHL: if x is not 15, VF is the old bit 7 and Vx is twice the old Vx mod
256; with x = 15 VF ends 2 if the old VF was at least 0x80 and 0 if not. No other register, and
nothing else, has changed, and the answer is the same for every k. [R129, R131, R77, R133] The
clauses for x = F are the spec's decision D2 (log 5). That SHR and SHL carry the ignored nibble is
the model's choice (log 15). -/
def Obligations.ShiftsInPlace : Prop :=
  (∀ (op : Word) (x : Reg) (k : Fin 16),
    (decodeWord op = some (.shr x k) ↔ op.toNat = 0x8006 + x.val * 256 + k.val * 16) ∧
    (decodeWord op = some (.shl x k) ↔ op.toNat = 0x800E + x.val * 256 + k.val * 16)) ∧
  ∀ (s : State) (x : Reg),
    (∃ t, (∀ k, exec (.shr x k) s = .next t) ∧ OnlyRegs [x, regF] s t ∧
      (x ≠ regF → (t.getV regF).toNat = (s.getV x).toNat % 2 ∧
        (t.getV x).toNat = (s.getV x).toNat / 2) ∧
      (x = regF → (t.getV regF).toNat = 0)) ∧
    (∃ t, (∀ k, exec (.shl x k) s = .next t) ∧ OnlyRegs [x, regF] s t ∧
      (x ≠ regF → (t.getV regF).toNat = (s.getV x).toNat / 128 ∧
        (t.getV x).toNat = (s.getV x).toNat * 2 % 256) ∧
      (x = regF → (t.getV regF).toNat = if 0x80 ≤ (s.getV regF).toNat then 2 else 0))

/-- A word decodes to RND exactly when it is 0xC000 + 256x + kk. There is one sequence of draws such
that for every state exec of RND answers a state in which Vx is the next draw AND kk (so no bit
outside kk is set), one more draw has been consumed, and nothing else has changed: VF only if it
is Vx. For every byte r, the meaning on the draw r puts r AND kk in Vx. [R132, R183] The draws are
a free value and their count the model's own field (the spec's decision D9, log 9): the statement
holds for every sequence. -/
def Obligations.RandomMasksOneDraw : Prop :=
  (∀ (op : Word) (x : Reg) (kk : Byte),
    decodeWord op = some (.rnd x kk) ↔ op.toNat = 0xC000 + x.val * 256 + kk.toNat) ∧
  (∃ draw : Nat → Byte, ∀ (s : State) (x : Reg) (kk : Byte),
    ∃ t, exec (.rnd x kk) s = .next t ∧ t.getV x = draw s.draws &&& kk ∧
      t.getV x &&& ~~~kk = 0 ∧ t.draws = s.draws + 1 ∧ OnlyRegs [x] s.countDraw t) ∧
  ∀ (r kk : Byte) (x : Reg) (s : State), (rndWith r x kk s).getV x = r &&& kk

/-- For every instruction i that is not RND, every state s, every t that exec answers at s and every
count n: exec of i at s with n draws counted answers t with n draws counted. [R183, R132, R34] The
count of draws is the model's own field (log 9). -/
def Obligations.OnlyRandomReadsTheDraws : Prop :=
  ∀ (i : Instr) (s t : State) (n : Nat), (∀ x kk, i ≠ .rnd x kk) → exec i s = .next t →
    exec i { s with draws := n } = .next { t with draws := n }

/-- Words: LD_I is 0xA000 + nnn, ADD_I 0xF01E + 256x, LD_F 0xF029 + 256x. For every state exec of each
answers a state in which I is nnn, (I + Vx) mod 65536, or 5 Vx (the whole byte, not its low
nibble), and nothing else has changed: no flag. [R140, R141, R142] -/
def Obligations.IndexWrites : Prop :=
  (∀ (op : Word) (nnn : Addr12),
    decodeWord op = some (.ldI nnn) ↔ op.toNat = 0xA000 + nnn.toNat) ∧
  (∀ (op : Word) (x : Reg),
    (decodeWord op = some (.addI x) ↔ op.toNat = 0xF01E + x.val * 256) ∧
    (decodeWord op = some (.ldF x) ↔ op.toNat = 0xF029 + x.val * 256)) ∧
  ∀ (s : State) (nnn : Addr12) (x : Reg),
    (∃ t, exec (.ldI nnn) s = .next t ∧ t.i.toNat = nnn.toNat ∧ t = s.setI t.i) ∧
    (∃ t, exec (.addI x) s = .next t ∧
      t.i.toNat = (s.i.toNat + (s.getV x).toNat) % 65536 ∧ t = s.setI t.i) ∧
    (∃ t, exec (.ldF x) s = .next t ∧ t.i.toNat = 5 * (s.getV x).toNat ∧ t = s.setI t.i)

/-- A word decodes to LD_B exactly when it is 0xF033 + 256x. For every state with I at most 4093, exec
of LD_B answers a state in which the bytes at I, I+1, I+2 are Vx div 100, (Vx div 10) mod 10 and
Vx mod 10, so that 100, 10 and 1 times them sum to Vx; every other byte reads as before and
nothing else has changed. With I above 4093 it takes MEM_OOB. [R143, R59, R56] The fault record is
the spec's decision D5 (log 2). -/
def Obligations.DecimalStoreWritesThreeDigits : Prop :=
  (∀ (op : Word) (x : Reg), decodeWord op = some (.ldB x) ↔ op.toNat = 0xF033 + x.val * 256) ∧
  (∀ (s : State) (x : Reg), s.i.toNat + 2 ≤ 4095 → ∃ t, exec (.ldB x) s = .next t ∧
    (t.mem.get s.i.toNat).toNat = (s.getV x).toNat / 100 ∧
    (t.mem.get (s.i.toNat + 1)).toNat = (s.getV x).toNat / 10 % 10 ∧
    (t.mem.get (s.i.toNat + 2)).toNat = (s.getV x).toNat % 10 ∧
    100 * (t.mem.get s.i.toNat).toNat + 10 * (t.mem.get (s.i.toNat + 1)).toNat +
      (t.mem.get (s.i.toNat + 2)).toNat = (s.getV x).toNat ∧
    (∀ a : Nat, a < s.i.toNat ∨ s.i.toNat + 2 < a → t.mem.get a = s.mem.get a) ∧
    t = s.setMem t.mem) ∧
  ∀ (s : State) (x : Reg), 4095 < s.i.toNat + 2 → ∃ t, exec (.ldB x) s = .next t ∧
    TakesFault .memOob (.ldB x) s t

/-- A word decodes to ST_REGS exactly when it is 0xF055 + 256x. For every state with I + x at most
4095, exec of ST_REGS answers a state in which the byte at I + k is Vk for every k up to x, every
other byte reads as before, and nothing else has changed: I and the registers as before. With I +
x above 4095 it takes MEM_OOB. [R144, R59, R56] The fault record is the spec's decision D5 (log
2). -/
def Obligations.RegisterStoreWritesUpToVx : Prop :=
  (∀ (op : Word) (x : Reg),
    decodeWord op = some (.stRegs x) ↔ op.toNat = 0xF055 + x.val * 256) ∧
  (∀ (s : State) (x : Reg), s.i.toNat + x.val ≤ 4095 → ∃ t, exec (.stRegs x) s = .next t ∧
    (∀ k : Reg, k ≤ x → t.mem.get (s.i.toNat + k.val) = s.getV k) ∧
    (∀ a : Nat, a < s.i.toNat ∨ s.i.toNat + x.val < a → t.mem.get a = s.mem.get a) ∧
    t = s.setMem t.mem) ∧
  ∀ (s : State) (x : Reg), 4095 < s.i.toNat + x.val → ∃ t, exec (.stRegs x) s = .next t ∧
    TakesFault .memOob (.stRegs x) s t

/-- A word decodes to LD_REGS exactly when it is 0xF065 + 256x. For every state with I + x at most
4095, exec of LD_REGS answers a state in which Vk is the byte at I + k for every k up to x, every
register above Vx is as before, and nothing else has changed: I and memory as before. With I + x
above 4095 it takes MEM_OOB. [R145, R59, R56] The fault record is the spec's decision D5 (log 2). -/
def Obligations.RegisterLoadReadsUpToVx : Prop :=
  (∀ (op : Word) (x : Reg),
    decodeWord op = some (.ldRegs x) ↔ op.toNat = 0xF065 + x.val * 256) ∧
  (∀ (s : State) (x : Reg), s.i.toNat + x.val ≤ 4095 → ∃ t, exec (.ldRegs x) s = .next t ∧
    (∀ k : Reg, k ≤ x → t.getV k = s.mem.get (s.i.toNat + k.val)) ∧
    (∀ k : Reg, x < k → t.getV k = s.getV k) ∧ t = s.setVs t.v) ∧
  ∀ (s : State) (x : Reg), 4095 < s.i.toNat + x.val → ∃ t, exec (.ldRegs x) s = .next t ∧
    TakesFault .memOob (.ldRegs x) s t

/-- For every state s with I + x at most 4095, t that exec of ST_REGS answers at s, and u with the
memory and I of t: exec of LD_REGS at u answers a state in which Vk is the Vk of s for every k up
to x. [R144, R145, R54] -/
def Obligations.StoredRegistersLoadBack : Prop :=
  ∀ (s t u : State) (x : Reg), s.i.toNat + x.val ≤ 4095 → exec (.stRegs x) s = .next t →
    u.mem = t.mem → u.i = t.i →
    ∃ w, exec (.ldRegs x) u = .next w ∧ ∀ k : Reg, k ≤ x → w.getV k = s.getV k

/-- For every state s with I + x at most 4095, neighbours Vk and Vl with l = k + 1 at most x, t that
exec of ST_REGS answers at s, and u with the memory of t and pc = I + k: the word u fetches is 256
Vk + Vl of s. For every state s with I at most 4093, t that exec of LD_B answers at s, and u with
the memory of t: with pc = I, u fetches 256 times the hundreds digit of Vx plus its tens digit;
with pc = I + 1, 256 times the tens digit plus the ones digit. [R62, R55, R56, R143, R144] -/
def Obligations.StoredBytesAreFetchedAsAnInstruction : Prop :=
  (∀ (s t u : State) (x k l : Reg), s.i.toNat + x.val ≤ 4095 → l.val = k.val + 1 → l ≤ x →
    exec (.stRegs x) s = .next t → u.mem = t.mem → u.pc.toNat = s.i.toNat + k.val →
    ∃ op, u.fetch = some op ∧ op.toNat = (s.getV k).toNat * 256 + (s.getV l).toNat) ∧
  ∀ (s t u : State) (x : Reg), s.i.toNat + 2 ≤ 4095 → exec (.ldB x) s = .next t →
    u.mem = t.mem →
    (u.pc.toNat = s.i.toNat → ∃ op, u.fetch = some op ∧
      op.toNat = (s.getV x).toNat / 100 * 256 + (s.getV x).toNat / 10 % 10) ∧
    (u.pc.toNat = s.i.toNat + 1 → ∃ op, u.fetch = some op ∧
      op.toNat = (s.getV x).toNat / 10 % 10 * 256 + (s.getV x).toNat % 10)

/-- A word decodes to CLS exactly when it is 0x00E0. For every state exec of CLS answers a state in
which every pixel is unlit and nothing else has changed: VF as before. [R150] -/
def Obligations.ClearScreenUnlightsAll : Prop :=
  (∀ op : Word, decodeWord op = some .cls ↔ op.toNat = 0x00E0) ∧
  ∀ s : State, ∃ t, exec .cls s = .next t ∧ (∀ x y, Framebuffer.pixel t.fb x y = false) ∧
    t = s.setFb t.fb

/-- A word decodes to DRW exactly when it is 0xD000 + 256x + 16y + n. For every state with n = 0 or I
+ n - 1 at most 4095, exec of DRW answers a state in which a pixel is flipped exactly when a set
bit of the n sprite rows from I, drawn at the origin (Vx, Vy) with wrapping, lands on it; VF is 1
if a lit pixel was covered and 0 if not; and no other register and nothing else has changed. With
n above 0 and I + n - 1 above 4095 it takes MEM_OOB. [R151, R152, R59] The bit order is the spec's
decision D7 (PRESUMED, log 7) and the fault record D5 (log 2). -/
def Obligations.DrawXorsCoveredPixels : Prop :=
  (∀ (op : Word) (x y : Reg) (n : Fin 16), decodeWord op = some (.drw x y n) ↔
    op.toNat = 0xD000 + x.val * 256 + y.val * 16 + n.val) ∧
  (∀ (s : State) (x y : Reg) (n : Fin 16), n.val = 0 ∨ s.i.toNat + n.val - 1 ≤ 4095 →
    ∃ (t : State) (sprite : List Byte), exec (.drw x y n) s = .next t ∧
      sprite.length = n.val ∧
      (∀ r : Nat, r < n.val → sprite.getD r 0 = s.mem.get (s.i.toNat + r)) ∧
      (∀ px py, Covers (s.getV x).toNat (s.getV y).toNat sprite px py →
        Framebuffer.pixel t.fb px py = !Framebuffer.pixel s.fb px py) ∧
      (∀ px py, ¬ Covers (s.getV x).toNat (s.getV y).toNat sprite px py →
        Framebuffer.pixel t.fb px py = Framebuffer.pixel s.fb px py) ∧
      (t.getV regF = 1 ↔ ∃ px py, Covers (s.getV x).toNat (s.getV y).toNat sprite px py ∧
        Framebuffer.pixel s.fb px py = true) ∧
      (t.getV regF = 0 ∨ t.getV regF = 1) ∧
      OnlyRegs [regF] (s.setFb t.fb) t) ∧
  ∀ (s : State) (x y : Reg) (n : Fin 16), 0 < n.val → 4095 < s.i.toNat + n.val - 1 →
    ∃ t, exec (.drw x y n) s = .next t ∧ TakesFault .memOob (.drw x y n) s t

/-- For every state s with n = 0 or I + n - 1 at most 4095, t that exec of DRW answers at s, with Vx
and Vy of t those of s, and u that exec of the same DRW answers at t: the framebuffer of u is that
of s; VF of u is 1 exactly when the sprite covers a pixel that is unlit in s; so, on a blank
framebuffer, when some byte of the n rows from I is not 0. [R151] R151's corner case (f) says the
second draw collides if the sprite has any set bit; by its own pseudocode that holds where a
covered pixel was unlit before, as stated here (log 23). Which pixels a sprite covers, in the
clause on VF, is by the bit order of the spec's decision D7 (R152, PRESUMED, log 7). -/
def Obligations.DrawingTwiceRestores : Prop :=
  ∀ (s t u : State) (x y : Reg) (n : Fin 16), n.val = 0 ∨ s.i.toNat + n.val - 1 ≤ 4095 →
    exec (.drw x y n) s = .next t → t.getV x = s.getV x → t.getV y = s.getV y →
    exec (.drw x y n) t = .next u →
      u.fb = s.fb ∧
      (u.getV regF = 1 ↔ ∃ px py, Covers (s.getV x).toNat (s.getV y).toNat
        (s.mem.getBytes s.i.toNat n.val) px py ∧ Framebuffer.pixel s.fb px py = false) ∧
      ((∀ px py, Framebuffer.pixel s.fb px py = false) →
        (∃ r : Nat, r < n.val ∧ s.mem.get (s.i.toNat + r) ≠ 0) → u.getV regF = 1)

/-- Words: SKP is 0xE09E + 256x, SKNP 0xE0A1 + 256x. For every state in the execute phase of an
instruction at address a (pc = a + 2) and key k with Vx = k, exec of SKP answers a state with pc =
a + 4 if key k is held and a + 2 if not, SKNP the other way round, and nothing else has changed.
With Vx above 15 both take KEY_INDEX_OOB. [R160, R161, R114] The fault is the spec's decision D3
and its record D5 (logs 3, 2). -/
def Obligations.KeySkipsTestOneKey : Prop :=
  (∀ (op : Word) (x : Reg),
    (decodeWord op = some (.skp x) ↔ op.toNat = 0xE09E + x.val * 256) ∧
    (decodeWord op = some (.sknp x) ↔ op.toNat = 0xE0A1 + x.val * 256)) ∧
  (∀ (s : State) (a : Word) (x : Reg) (k : Fin 16), s.pc = a + 2 → (s.getV x).toNat = k.val →
    (∃ t, exec (.skp x) s = .next t ∧ OnlyPc s t ∧
      t.pc = if s.key.get k = true then a + 4 else a + 2) ∧
    (∃ t, exec (.sknp x) s = .next t ∧ OnlyPc s t ∧
      t.pc = if s.key.get k = false then a + 4 else a + 2)) ∧
  ∀ (s : State) (x : Reg), 15 < (s.getV x).toNat →
    (∃ t, exec (.skp x) s = .next t ∧ TakesFault .keyIndexOob (.skp x) s t) ∧
    (∃ t, exec (.sknp x) s = .next t ∧ TakesFault .keyIndexOob (.sknp x) s t)

/-- A word decodes to LD_K exactly when it is 0xF00A + 256x. For every state in which key k is held
and no higher key is, exec of LD_K answers a state in which Vx is k and nothing else has changed.
With no key held exec answers the state with pc back by 2 and nothing else changed; so for every
state that is not halted whose next instruction is LD_K, with no key held, STEP answers that same
state. [R162] R162's remark on timers during the wait is not stated here. -/
def Obligations.KeyWaitTakesTheHighestHeldKey : Prop :=
  (∀ (op : Word) (x : Reg), decodeWord op = some (.ldK x) ↔ op.toNat = 0xF00A + x.val * 256) ∧
  (∀ (s : State) (x : Reg) (k : Fin 16), s.key.get k = true →
    (∀ j : Fin 16, k < j → s.key.get j = false) →
    ∃ t, exec (.ldK x) s = .next t ∧ (t.getV x).toNat = k.val ∧ OnlyRegs [x] s t) ∧
  (∀ (s : State) (x : Reg), (∀ j : Fin 16, s.key.get j = false) →
    exec (.ldK x) s = .next (s.setPc (s.pc - 2))) ∧
  ∀ (s : State) (x : Reg), ¬ s.Halted → s.nextInstr = some (.ldK x) →
    (∀ j : Fin 16, s.key.get j = false) → step s = .next s

/-- Words: LD_VX_DT is 0xF007 + 256x, LD_DT_VX 0xF015 + 256x, LD_ST_VX 0xF018 + 256x. For every state
exec of each answers a state in which Vx is DT, DT is Vx, or ST is Vx, and nothing else has
changed: no flag, the source as before. [R163, R164, R165] R165's remarks on the sound outputs are
not stated here. -/
def Obligations.TimerRegistersAreReadAndWritten : Prop :=
  (∀ (op : Word) (x : Reg),
    (decodeWord op = some (.ldVxDt x) ↔ op.toNat = 0xF007 + x.val * 256) ∧
    (decodeWord op = some (.ldDtVx x) ↔ op.toNat = 0xF015 + x.val * 256) ∧
    (decodeWord op = some (.ldStVx x) ↔ op.toNat = 0xF018 + x.val * 256)) ∧
  ∀ (s : State) (x : Reg),
    (∃ t, exec (.ldVxDt x) s = .next t ∧ t.getV x = s.dt ∧ OnlyRegs [x] s t) ∧
    (∃ t, exec (.ldDtVx x) s = .next t ∧ t.dt = s.getV x ∧ t = s.setDt t.dt) ∧
    (∃ t, exec (.ldStVx x) s = .next t ∧ t.st = s.getV x ∧ t = s.setSt t.st)

/-- For every instruction i, state s, t that exec answers at s, and byte b: exec of i at s with ST = b
answers t with some value of ST. [R29] -/
def Obligations.SoundTimerIsInvisibleToPrograms : Prop :=
  ∀ (i : Instr) (s t : State) (b : Byte), exec i s = .next t →
    ∃ c, exec i (s.setSt b) = .next (t.setSt c)

/-- For every instruction i, state s, t that exec answers at s, and framebuffer f: exec of i at s with
the framebuffer f answers t with some framebuffer, and, if i is DRW, some value of VF. [R153, R30] -/
def Obligations.PixelsAreReadOnlyThroughCollision : Prop :=
  (∀ (i : Instr) (s t : State) (f : Framebuffer), (∀ x y n, i ≠ .drw x y n) →
    exec i s = .next t → ∃ g, exec i (s.setFb f) = .next (t.setFb g)) ∧
  ∀ (x y : Reg) (n : Fin 16) (s t : State) (f : Framebuffer), exec (.drw x y n) s = .next t →
    ∃ g b, exec (.drw x y n) (s.setFb f) = .next ((t.setFb g).setV regF b)

/-- For every state that is not halted TIMER_TICK answers the state with DT - 1 and ST - 1, each 0 if
it was 0, nothing else changed, and tone_end = 1 exactly when ST was 1. On a halted state it
changes nothing and answers tone_end = 0. [R178, R179, R174] tone_end and the halted machine are
the spec's decisions D10 and D6 (logs 14, 6). -/
def Obligations.TimerTickCountsDown : Prop :=
  (∀ s : State, ¬ s.Halted →
    (timerTick s).1.dt.toNat = s.dt.toNat - 1 ∧ (timerTick s).1.st.toNat = s.st.toNat - 1 ∧
    (timerTick s).1 = (s.setDt (timerTick s).1.dt).setSt (timerTick s).1.st ∧
    ((timerTick s).2 = true ↔ s.st.toNat = 1)) ∧
  ∀ s : State, s.Halted → timerTick s = (s, false)

/-- For every state that is not halted and every n, n TIMER_TICKs answer a state in which DT and ST
are n less, or 0 where they were less than n, and nothing else has changed; so after 255 both are
0. [R178, R28, R29] -/
def Obligations.TicksRunTheTimersDown : Prop :=
  ∀ (n : Nat) (s : State), ¬ s.Halted →
    ∃ t, runSchedule (List.replicate n .timerTick) s = .next t ∧
      t.dt.toNat = s.dt.toNat - n ∧ t.st.toNat = s.st.toNat - n ∧
      t = (s.setDt t.dt).setSt t.st ∧ (n = 255 → t.dt = 0 ∧ t.st = 0)

/-- For every state that is not halted, key and value, SET_KEY leaves that key with that value, every
other key as it was, and nothing else changed. On a halted state it changes nothing. [R181] The
halted machine is the spec's decision D6 (log 6). -/
def Obligations.SetKeyWritesOneKey : Prop :=
  (∀ (s : State) (k : Fin 16) (b : Bool), ¬ s.Halted →
    (setKey k b s).key.get k = b ∧
    (∀ j : Fin 16, j ≠ k → (setKey k b s).key.get j = s.key.get j) ∧
    setKey k b s = s.setKeys (setKey k b s).key) ∧
  ∀ (s : State) (k : Fin 16) (b : Bool), s.Halted → setKey k b s = s

/-- For every state that is not halted and bytes of length at most 3584, LOAD_PROGRAM leaves byte k at
0x200 + k, every byte outside as it was, and nothing else changed. With more than 3584 bytes it
writes nothing and takes LOAD_CAPACITY with opcode 0 and address 0x200. On a halted state it
changes nothing. [R202, R171, R174] The details and the record are the spec's decisions D15, D5
and D6 (logs 13, 2, 6). -/
def Obligations.LoadProgramIsAllOrNothing : Prop :=
  (∀ (s : State) (bytes : List Byte), ¬ s.Halted → bytes.length ≤ 3584 →
    (∀ k : Nat, k < bytes.length →
      (loadProgram bytes s).mem.get (0x200 + k) = bytes.getD k 0) ∧
    (∀ a : Nat, a < 0x200 ∨ 0x200 + bytes.length ≤ a →
      (loadProgram bytes s).mem.get a = s.mem.get a) ∧
    loadProgram bytes s = s.setMem (loadProgram bytes s).mem) ∧
  (∀ (s : State) (bytes : List Byte), ¬ s.Halted → 3584 < bytes.length →
    loadProgram bytes s =
      s.setFault { valid := true, cause := .loadCapacity, opcode := 0, addr := 0x200 }) ∧
  ∀ (s : State) (bytes : List Byte), s.Halted → loadProgram bytes s = s

/-- For every state that is not halted whose memory is zero from pc up, and every n with pc + 2n at
most 4096, n STEPs answer the state with pc + 2n and nothing else changed; and if pc + 2n is 4096,
one more STEP takes FETCH_OOB there. From reset, where pc is 0x200, that is 1792 STEPs. [R209,
R78, R95, R91] The fault record is the spec's decision D5 (log 2). -/
def Obligations.ZeroedMemoryRunsToItsEnd : Prop :=
  ∀ (n : Nat) (s : State), ¬ s.Halted →
    (∀ a : Nat, s.pc.toNat ≤ a → a < 4096 → s.mem.get a = 0) → s.pc.toNat + 2 * n ≤ 4096 →
    ∃ t, Sys2Proof.core.run n s = .next t ∧ t.pc.toNat = s.pc.toNat + 2 * n ∧ OnlyPc s t ∧
      (s.pc.toNat + 2 * n = 4096 → step t = .next
        (t.setFault { valid := true, cause := .fetchOob, opcode := 0, addr := 0x1000 }))

/-- At reset memory is in canonical form, pc is at most 0x10FE, every live stack entry is at most 4096
and FAULT is coherent. [R24, R26, R33, R40] Which slots are live is the spec's decision D4 (R26,
log 4), the content of FAULT its decision D5 (R33, log 2); the canonical form of memory is the
model's own (log 20). -/
def Obligations.ResetMeetsTheInvariant : Prop :=
  State.reset.Inv

/-- For every state s that meets the invariant and every t that STEP answers, t meets the invariant.
[R24, R26, R27, R33, R93] Which slots are live is the spec's decision D4 (R26, log 4), the content
of FAULT its decision D5 (R33, log 2); the canonical form of memory is the model's own (log 20). -/
def Obligations.StepKeepsTheInvariant : Prop :=
  ∀ s t : State, s.Inv → step s = .next t → t.Inv

/-- For every state that meets the invariant and every list of host operations, RESET, LOAD_PROGRAM,
STEP, TIMER_TICK and SET_KEY in any order, the state the run ends in meets the invariant. [R24,
R26, R33, R5, R200, R202] Which slots are live is the spec's decision D4 (R26, log 4), the content
of FAULT its decision D5 (R33, log 2); the canonical form of memory is the model's own (log 20). -/
def Obligations.EveryRunKeepsTheInvariant : Prop :=
  ∀ (ops : List HostOp) (s t : State), s.Inv → runSchedule ops s = .next t → t.Inv
end

