-- ==== Sys2Proof/Laws/Decode.lean ====
section
/-! SUPPORT. Words and their fields in numbers, and the masks of R75 in numbers: every claim about an
encoding comes down to linear arithmetic on `op.toNat`. -/

namespace Sys2Proof

@[simp] theorem fieldN1_val (op : Word) : (fieldN1 op).val = op.toNat / 4096 := by
  have := op.isLt
  simp [fieldN1, nibbleAt, Nat.shiftRight_eq_div_pow]; omega

@[simp] theorem fieldX_val (op : Word) : (fieldX op).val = op.toNat / 256 % 16 := by
  simp [fieldX, nibbleAt, Nat.shiftRight_eq_div_pow]

@[simp] theorem fieldY_val (op : Word) : (fieldY op).val = op.toNat / 16 % 16 := by
  simp [fieldY, nibbleAt, Nat.shiftRight_eq_div_pow]

@[simp] theorem fieldN_val (op : Word) : (fieldN op).val = op.toNat % 16 := by
  simp [fieldN, nibbleAt]

@[simp] theorem fieldKK_toNat (op : Word) : (fieldKK op).toNat = op.toNat % 256 := by
  simp [fieldKK, BitVec.extractLsb'_toNat]

@[simp] theorem fieldNNN_toNat (op : Word) : (fieldNNN op).toNat = op.toNat % 4096 := by
  simp [fieldNNN, BitVec.extractLsb'_toNat]

@[simp] theorem highByte_toNat (op : Word) : (highByte op).toNat = op.toNat / 256 := by
  have := op.isLt
  simp [highByte, BitVec.extractLsb'_toNat, Nat.shiftRight_eq_div_pow]; omega

@[simp] theorem lowByte_toNat (op : Word) : (lowByte op).toNat = op.toNat % 256 := by
  simp [lowByte, BitVec.extractLsb'_toNat]

theorem append_toNat {m n : Nat} (a : BitVec m) (b : BitVec n) :
    (a ++ b).toNat = a.toNat * 2 ^ n + b.toNat := by
  rw [BitVec.toNat_append, Nat.shiftLeft_eq, Nat.mul_comm, Nat.two_pow_add_eq_or_of_lt b.isLt]

@[simp] theorem wordOfBytes_toNat (hi lo : Byte) :
    (wordOfBytes hi lo).toNat = hi.toNat * 256 + lo.toNat := append_toNat hi lo

@[simp] theorem nibbleBits_toNat (k : Fin 16) : (nibbleBits k).toNat = k.val := rfl

@[simp] theorem wordNNN_toNat (n1 : BitVec 4) (nnn : Addr12) :
    (wordNNN n1 nnn).toNat = n1.toNat * 4096 + nnn.toNat := append_toNat n1 nnn

@[simp] theorem wordXKK_toNat (n1 : BitVec 4) (x : Reg) (kk : Byte) :
    (wordXKK n1 x kk).toNat = n1.toNat * 4096 + x.val * 256 + kk.toNat := by
  rw [wordXKK, append_toNat, append_toNat, nibbleBits_toNat]; omega

@[simp] theorem wordXYN_toNat (n1 : BitVec 4) (x y : Reg) (n : Fin 16) :
    (wordXYN n1 x y n).toNat = n1.toNat * 4096 + x.val * 256 + y.val * 16 + n.val := by
  rw [wordXYN, append_toNat, append_toNat, append_toNat]
  simp only [nibbleBits_toNat]; omega

/-! ## The fields of a word that was put together from them -/

@[simp] theorem fieldN1_wordNNN (n1 : BitVec 4) (nnn : Addr12) :
    fieldN1 (wordNNN n1 nnn) = n1.toFin := by
  have := nnn.isLt
  exact Fin.ext (by simp; omega)

@[simp] theorem fieldNNN_wordNNN (n1 : BitVec 4) (nnn : Addr12) :
    fieldNNN (wordNNN n1 nnn) = nnn := by
  have := nnn.isLt
  exact BitVec.eq_of_toNat_eq (by simp; omega)

@[simp] theorem fieldN1_wordXKK (n1 : BitVec 4) (x : Reg) (kk : Byte) :
    fieldN1 (wordXKK n1 x kk) = n1.toFin := by
  have := kk.isLt
  exact Fin.ext (by simp; omega)

@[simp] theorem fieldX_wordXKK (n1 : BitVec 4) (x : Reg) (kk : Byte) :
    fieldX (wordXKK n1 x kk) = x := by
  have := kk.isLt
  exact Fin.ext (by simp; omega)

@[simp] theorem fieldKK_wordXKK (n1 : BitVec 4) (x : Reg) (kk : Byte) :
    fieldKK (wordXKK n1 x kk) = kk := by
  have := kk.isLt
  exact BitVec.eq_of_toNat_eq (by simp; omega)

@[simp] theorem fieldN1_wordXYN (n1 : BitVec 4) (x y : Reg) (n : Fin 16) :
    fieldN1 (wordXYN n1 x y n) = n1.toFin := Fin.ext (by simp; omega)

@[simp] theorem fieldX_wordXYN (n1 : BitVec 4) (x y : Reg) (n : Fin 16) :
    fieldX (wordXYN n1 x y n) = x := Fin.ext (by simp; omega)

@[simp] theorem fieldY_wordXYN (n1 : BitVec 4) (x y : Reg) (n : Fin 16) :
    fieldY (wordXYN n1 x y n) = y := Fin.ext (by simp; omega)

@[simp] theorem fieldN_wordXYN (n1 : BitVec 4) (x y : Reg) (n : Fin 16) :
    fieldN (wordXYN n1 x y n) = n := Fin.ext (by simp; omega)

/-- A word is its two bytes. -/
@[simp] theorem wordOfBytes_high_low (op : Word) : wordOfBytes (highByte op) (lowByte op) = op := by
  apply BitVec.eq_of_toNat_eq
  rw [wordOfBytes_toNat, highByte_toNat, lowByte_toNat]; omega

/-- What the decoder makes of a word's two bytes. -/
theorem decode_bytes (op : Word) (rest : List Byte) :
    decode (highByte op :: lowByte op :: rest) =
      match decodeWord op with
      | some i => .ok (i, rest)
      | none => .error (.undefinedOpcode op) := by
  cases h : decodeWord op <;> simp only [decode, wordOfBytes_high_low, h]

/-- When two bytes and more decode. -/
theorem decode_eq_ok {hi lo : Byte} {rest r : List Byte} {i : Instr} :
    decode (hi :: lo :: rest) = .ok (i, r) ↔
      decodeWord (wordOfBytes hi lo) = some i ∧ r = rest := by
  rw [decode]
  cases decodeWord (wordOfBytes hi lo) <;> simp [eq_comm]

/-! ## The masks -/

theorem nat_and_highMask (k lo w : Nat) : k &&& ((2 ^ w - 1) * 2 ^ lo) = k / 2 ^ lo % 2 ^ w * 2 ^ lo := by
  have h1 : (2 ^ w - 1) * 2 ^ lo = (2 ^ w - 1) <<< lo := by rw [Nat.shiftLeft_eq]
  have h2 : k / 2 ^ lo % 2 ^ w * 2 ^ lo = ((k >>> lo) % 2 ^ w) <<< lo := by
    rw [Nat.shiftLeft_eq, Nat.shiftRight_eq_div_pow]
  rw [h1, h2]
  apply Nat.eq_of_testBit_eq
  intro j
  simp only [Nat.testBit_and, Nat.testBit_shiftLeft, Nat.testBit_two_pow_sub_one,
    Nat.testBit_mod_two_pow, Nat.testBit_shiftRight]
  by_cases h : lo ≤ j
  · simp [h, Bool.and_comm]
  · simp [h]

theorem nat_and_split (k w : Nat) (hw : w ≤ 12) :
    k &&& (0xF000 + (2 ^ w - 1)) = k / 4096 % 16 * 4096 + k % 2 ^ w := by
  have hp : 2 ^ w ≤ 2 ^ 12 := Nat.pow_le_pow_right (by decide) hw
  have hpos : 0 < 2 ^ w := Nat.two_pow_pos w
  have h1 := nat_and_highMask k 12 4
  have h2 := nat_and_highMask k 0 w
  simp only [Nat.pow_zero, Nat.mul_one, Nat.div_one] at h2
  have hlt : k % 2 ^ w < 2 ^ 12 := Nat.lt_of_lt_of_le (Nat.mod_lt _ hpos) hp
  rw [show (0xF000 : Nat) = 2 ^ 12 * (2 ^ 4 - 1) from rfl,
    Nat.two_pow_add_eq_or_of_lt (by omega), Nat.and_or_distrib_left, h2,
    Nat.mul_comm (2 ^ 12), h1, Nat.mul_comm _ (2 ^ 12), ← Nat.two_pow_add_eq_or_of_lt hlt]
  omega

/-- Mask 0xFFFF: the whole word. -/
theorem and_FFFF (op : Word) : (op &&& 0xFFFF).toNat = op.toNat := by
  have := op.isLt
  rw [BitVec.toNat_and]
  have h := nat_and_highMask op.toNat 0 16
  simp at h ⊢
  rw [h]; omega

/-- Mask 0xF000: n1. -/
theorem and_F000 (op : Word) : (op &&& 0xF000).toNat = op.toNat / 4096 * 4096 := by
  have := op.isLt
  rw [BitVec.toNat_and]
  have h := nat_and_highMask op.toNat 12 4
  simp at h ⊢
  rw [h]; omega

/-- Mask 0xF00F: n1 and n4. -/
theorem and_F00F (op : Word) :
    (op &&& 0xF00F).toNat = op.toNat / 4096 * 4096 + op.toNat % 16 := by
  have := op.isLt
  rw [BitVec.toNat_and, show (0xF00F : Word).toNat = 0xF000 + (2 ^ 4 - 1) from rfl,
    nat_and_split _ _ (by decide)]
  omega

/-- Mask 0xF0FF: n1, n3 and n4. -/
theorem and_F0FF (op : Word) :
    (op &&& 0xF0FF).toNat = op.toNat / 4096 * 4096 + op.toNat % 256 := by
  have := op.isLt
  rw [BitVec.toNat_and, show (0xF0FF : Word).toNat = 0xF000 + (2 ^ 8 - 1) from rfl,
    nat_and_split _ _ (by decide)]
  omega

/-- A row selects a word by its masked number. -/
theorem selects_iff (m : Mnemonic) (op : Word) :
    m.selects op = true ↔ (op &&& m.mask).toNat = m.pattern.toNat := by
  rw [Mnemonic.selects, decide_eq_true_eq, BitVec.toNat_inj]

end Sys2Proof
end

