-- ==== Sys2Proof/Laws/Display.lean ====
section
/-! SUPPORT. What drawing does: a sprite of at most 32 rows toggles exactly the pixels it covers, each
once, and collides exactly when one of them was lit (spec/45_display.md R151). -/

namespace Sys2Proof.Machine

/-- Two framebuffers with the same pixels are equal. -/
theorem Framebuffer.ext_pixel {f g : Framebuffer}
    (h : ∀ x y, Framebuffer.pixel f x y = Framebuffer.pixel g x y) : f = g := by
  refine Vector.ext fun y hy => Vector.ext fun x hx => ?_
  simpa [Framebuffer.pixel, Vector.get_eq_getElem] using h ⟨x, hx⟩ ⟨y, hy⟩

@[simp] theorem Framebuffer.pixel_blank (x : Fin 64) (y : Fin 32) :
    Framebuffer.pixel Framebuffer.blank x y = false := by
  simp [Framebuffer.pixel, Framebuffer.blank, Vector.get_eq_getElem]

/-- A toggle flips its own pixel and no other. -/
theorem Framebuffer.pixel_toggle (f : Framebuffer) (a x : Fin 64) (b y : Fin 32) :
    Framebuffer.pixel (Framebuffer.toggle f a b) x y =
      (Framebuffer.pixel f x y ^^ decide (x = a ∧ y = b)) := by
  by_cases hy : y = b
  · subst hy
    by_cases hx : x = a
    · subst hx
      simp [Framebuffer.pixel, Framebuffer.toggle, Vector.get_eq_getElem]
    · have : ¬ a.val = x.val := fun h => hx (Fin.ext h.symm)
      simp [Framebuffer.pixel, Framebuffer.toggle, Vector.get_eq_getElem, hx, this]
  · have : ¬ b.val = y.val := fun h => hy (Fin.ext h.symm)
    simp [Framebuffer.pixel, Framebuffer.toggle, Vector.get_eq_getElem, hy, this]

/-- Pixels drawn one after another. -/
def drawAll (ps : List (Fin 64 × Fin 32)) (d : Drawing) : Drawing :=
  ps.foldl (fun d p => drawPixel d p.1 p.2) d

/-- Distinct pixels drawn one after another: each flips once, and the collision test sees every cell as
it was before. -/
theorem drawAll_spec {ps : List (Fin 64 × Fin 32)} (hp : ps.Nodup) (d : Drawing) :
    (∀ x y, Framebuffer.pixel (drawAll ps d).1 x y =
      (Framebuffer.pixel d.1 x y ^^ decide ((x, y) ∈ ps))) ∧
    ((drawAll ps d).2 = true ↔
      d.2 = true ∨ ∃ p ∈ ps, Framebuffer.pixel d.1 p.1 p.2 = true) := by
  induction ps generalizing d with
  | nil => simp [drawAll]
  | cons p ps ih =>
    obtain ⟨hnot, hp⟩ := List.nodup_cons.1 hp
    obtain ⟨ih1, ih2⟩ := ih hp (drawPixel d p.1 p.2)
    have hstep : drawAll (p :: ps) d = drawAll ps (drawPixel d p.1 p.2) := rfl
    rw [hstep]
    constructor
    · intro x y
      rw [ih1]
      simp only [drawPixel, Framebuffer.pixel_toggle, List.mem_cons]
      by_cases h : (x, y) = p
      · subst h; simp [hnot]
      · have : ¬ (x = p.1 ∧ y = p.2) := fun hh => h (Prod.ext hh.1 hh.2)
        simp [h, this]
    · rw [ih2]
      simp only [drawPixel, Framebuffer.pixel_toggle, List.mem_cons, Bool.or_eq_true]
      constructor
      · rintro ((h | h) | ⟨q, hq, h⟩)
        · exact .inl h
        · exact .inr ⟨p, .inl rfl, h⟩
        · have : ¬ (q.1 = p.1 ∧ q.2 = p.2) := fun hh => hnot (by rwa [← Prod.ext hh.1 hh.2])
          exact .inr ⟨q, .inr hq, by simpa [this] using h⟩
      · rintro (h | ⟨q, rfl | hq, h⟩)
        · exact .inl (.inl h)
        · exact .inl (.inr h)
        · have : ¬ (q.1 = p.1 ∧ q.2 = p.2) := fun hh => hnot (by rwa [← Prod.ext hh.1 hh.2])
          exact .inr ⟨q, hq, by simpa [this] using h⟩

/-- The pixels of one row's set bits. -/
def columnTargets (ox : Nat) (y : Fin 32) (b : Byte) (cs : List Nat) : List (Fin 64 × Fin 32) :=
  (cs.filter (spriteBit Config.spriteBitOrder b)).map fun c => (wrapX (ox + c), y)

theorem drawColumns_eq (ox : Nat) (y : Fin 32) (b : Byte) (cs : List Nat) (d : Drawing) :
    drawColumns ox y b cs d = drawAll (columnTargets ox y b cs) d := by
  induction cs generalizing d with
  | nil => rfl
  | cons c cs ih =>
    rw [drawColumns, ih]
    by_cases h : spriteBit Config.spriteBitOrder b c = true <;>
      simp [h, columnTargets, drawAll]

/-- The pixels of the rows from `r` on. -/
def rowTargets (ox oy : Nat) : Nat → List Byte → List (Fin 64 × Fin 32)
  | _, [] => []
  | r, b :: rest =>
    columnTargets ox (wrapY (oy + r)) b (List.range 8) ++ rowTargets ox oy (r + 1) rest

theorem drawRows_eq (ox oy r : Nat) (sprite : List Byte) (d : Drawing) :
    drawRows ox oy r sprite d = drawAll (rowTargets ox oy r sprite) d := by
  induction sprite generalizing r d with
  | nil => rfl
  | cons b rest ih => rw [drawRows, ih, drawColumns_eq]; simp [rowTargets, drawAll]

theorem mem_columnTargets {ox : Nat} {y : Fin 32} {b : Byte} {p : Fin 64 × Fin 32} :
    p ∈ columnTargets ox y b (List.range 8) ↔
      ∃ c, c < 8 ∧ b.getLsbD (7 - c) = true ∧ (ox + c) % 64 = p.1.val ∧ y = p.2 := by
  simp [columnTargets, Config.spriteBitOrder, spriteBit, Prod.ext_iff, wrapX, Fin.ext_iff,
    and_assoc]

theorem mem_rowTargets {ox oy r : Nat} {sprite : List Byte} {p : Fin 64 × Fin 32} :
    p ∈ rowTargets ox oy r sprite ↔
      ∃ k c, k < sprite.length ∧ c < 8 ∧ (sprite.getD k 0).getLsbD (7 - c) = true ∧
        (ox + c) % 64 = p.1.val ∧ (oy + (r + k)) % 32 = p.2.val := by
  induction sprite generalizing r with
  | nil => simp [rowTargets]
  | cons b rest ih =>
    rw [rowTargets, List.mem_append, mem_columnTargets, ih]
    constructor
    · rintro (⟨c, hc, hb, hx, hy⟩ | ⟨k, c, hk, hc, hb, hx, hy⟩)
      · exact ⟨0, c, by simp, hc, by simpa using hb, hx, by simp [← hy, wrapY]⟩
      · exact ⟨k + 1, c, by simp; omega, hc, by simpa using hb, hx, by rw [← hy]; congr 2; omega⟩
    · rintro ⟨k, c, hk, hc, hb, hx, hy⟩
      cases k with
      | zero => exact .inl ⟨c, hc, by simpa using hb, hx, Fin.ext (by simpa [wrapY] using hy)⟩
      | succ k =>
        simp only [List.length_cons, List.getD_cons_succ] at hk hb
        exact .inr ⟨k, c, by omega, hc, hb, hx, by rw [← hy]; congr 2; omega⟩

theorem nodup_columnTargets (ox : Nat) (y : Fin 32) (b : Byte) :
    (columnTargets ox y b (List.range 8)).Nodup := by
  refine List.Nodup.map_on ?_ (List.nodup_range.filter _)
  intro c hc e he h
  simp [wrapX, Fin.ext_iff] at h hc he
  omega

/-- Within one sprite no pixel is a target twice (R151, corner case e). -/
theorem nodup_rowTargets {ox oy r : Nat} {sprite : List Byte} (h : sprite.length ≤ 32) :
    (rowTargets ox oy r sprite).Nodup := by
  induction sprite generalizing r with
  | nil => simp [rowTargets]
  | cons b rest ih =>
    simp only [List.length_cons] at h
    refine List.Nodup.append (nodup_columnTargets ..) (ih (by omega)) ?_
    intro p hp hq
    obtain ⟨c, -, -, -, hy⟩ := mem_columnTargets.1 hp
    obtain ⟨k, e, hk, -, -, -, hy'⟩ := mem_rowTargets.1 hq
    have : (oy + r) % 32 = p.2.val := by rw [← hy]; rfl
    omega

theorem mem_targets_iff_covers {ox oy : Nat} {sprite : List Byte} {x : Fin 64} {y : Fin 32} :
    (x, y) ∈ rowTargets ox oy 0 sprite ↔ Covers ox oy sprite x y := by
  rw [mem_rowTargets]; simp [Covers]

/-- A sprite flips a pixel exactly when it covers it. -/
theorem drawSprite_pixel (fb : Framebuffer) (ox oy : Nat) {sprite : List Byte}
    (h : sprite.length ≤ 32) (x : Fin 64) (y : Fin 32) :
    (Covers ox oy sprite x y →
      Framebuffer.pixel (drawSprite fb ox oy sprite).1 x y = !Framebuffer.pixel fb x y) ∧
    (¬ Covers ox oy sprite x y →
      Framebuffer.pixel (drawSprite fb ox oy sprite).1 x y = Framebuffer.pixel fb x y) := by
  have := (drawAll_spec (nodup_rowTargets (ox := ox) (oy := oy) (r := 0) h) (fb, false)).1 x y
  rw [drawSprite, drawRows_eq, this]
  constructor <;> intro hc <;> rw [← mem_targets_iff_covers] at hc <;> simp [hc]

/-- A drawing collides exactly when it covers a lit pixel. -/
theorem drawSprite_collision (fb : Framebuffer) (ox oy : Nat) {sprite : List Byte}
    (h : sprite.length ≤ 32) :
    (drawSprite fb ox oy sprite).2 = true ↔
      ∃ x y, Covers ox oy sprite x y ∧ Framebuffer.pixel fb x y = true := by
  have := (drawAll_spec (nodup_rowTargets (ox := ox) (oy := oy) (r := 0) h) (fb, false)).2
  rw [drawSprite, drawRows_eq, this]
  simp [Prod.exists, mem_targets_iff_covers]

/-- Drawn twice at one origin, a sprite of at most 32 rows leaves the framebuffer as it was (R151,
corner case f). -/
theorem drawSprite_twice (fb : Framebuffer) (ox oy : Nat) {sprite : List Byte}
    (h : sprite.length ≤ 32) :
    (drawSprite (drawSprite fb ox oy sprite).1 ox oy sprite).1 = fb := by
  refine Framebuffer.ext_pixel fun x y => ?_
  obtain ⟨h1, h2⟩ := drawSprite_pixel fb ox oy h x y
  obtain ⟨g1, g2⟩ := drawSprite_pixel (drawSprite fb ox oy sprite).1 ox oy h x y
  by_cases hc : Covers ox oy sprite x y
  · rw [g1 hc, h1 hc, Bool.not_not]
  · rw [g2 hc, h2 hc]

end Sys2Proof.Machine
end

