-- ==== Sys2Proof/Laws/Memory.lean ====
section
/-! SUPPORT. The laws of `MEM`: read after write, the canonical form kept, equal readings mean equal
memories, and what a range of accesses does. -/

namespace Sys2Proof.Machine.Memory

/-! ## Read after write -/

theorem get_without_self (m : Memory) (a : Nat) :
    get (m.filter fun c => c.1 != a) a = resetByte a := by
  induction m with
  | nil => rfl
  | cons c rest ih =>
    obtain ⟨b, w⟩ := c
    by_cases h : b = a <;> simp_all [get]

theorem get_without_ne (m : Memory) {a b : Nat} (h : b ≠ a) :
    get (m.filter fun c => c.1 != a) b = get m b := by
  induction m with
  | nil => rfl
  | cons c rest ih =>
    obtain ⟨d, w⟩ := c
    by_cases hd : d = a
    · subst hd; simp [get, ih, Ne.symm h]
    · by_cases hb : d = b <;> simp_all [get]

theorem get_insertCell_self (m : Memory) (a : Nat) (w : Byte) (h : ∀ c ∈ m, c.1 ≠ a) :
    get (insertCell a w m) a = w := by
  induction m with
  | nil => simp [insertCell, get]
  | cons c rest ih =>
    obtain ⟨b, u⟩ := c
    have hb : b ≠ a := h (b, u) (by simp)
    have ih := ih fun c hc => h c (by simp [hc])
    by_cases hab : a < b <;> simp [insertCell, get, hab, hb, ih]

theorem get_insertCell_ne (m : Memory) {a b : Nat} (w : Byte) (h : b ≠ a) :
    get (insertCell a w m) b = get m b := by
  induction m with
  | nil => simp [insertCell, get, Ne.symm h]
  | cons c rest ih =>
    obtain ⟨d, u⟩ := c
    by_cases had : a < d <;> simp [insertCell, get, had, ih, Ne.symm h]

/-- Read after write (spec/20_memory.md R54), at every address and in every memory. -/
@[simp] theorem get_set (m : Memory) (a b : Nat) (w : Byte) :
    (m.set a w).get b = if b = a then w else m.get b := by
  unfold set
  by_cases hb : b = a
  · subst hb
    by_cases hw : w = resetByte b
    · simp [hw, get_without_self]
    · simp only [hw, if_false, if_true]
      exact get_insertCell_self _ _ _ (by simp)
  · by_cases hw : w = resetByte a
    · simp [hw, hb, get_without_ne m hb]
    · simp [hw, hb, get_insertCell_ne _ _ hb, get_without_ne m hb]

/-! ## The canonical form -/

theorem wfFrom_mono {lo lo' : Nat} {m : Memory} (h : lo ≤ lo') (hm : wfFrom lo' m = true) :
    wfFrom lo m = true := by
  cases m with
  | nil => rfl
  | cons c rest => 
    simp only [wfFrom, Bool.and_eq_true, decide_eq_true_eq] at hm ⊢
    exact ⟨⟨⟨by omega, hm.1.1.2⟩, hm.1.2⟩, hm.2⟩

theorem wfFrom_filter {lo : Nat} {m : Memory} (p : Host.Cell → Bool) (hm : wfFrom lo m = true) :
    wfFrom lo (m.filter p) = true := by
  induction m generalizing lo with
  | nil => rfl
  | cons c rest ih =>
    obtain ⟨a, w⟩ := c
    simp only [wfFrom, Bool.and_eq_true, decide_eq_true_eq] at hm
    obtain ⟨⟨⟨h1, h2⟩, h3⟩, h4⟩ := hm
    by_cases hp : p (a, w) = true
    · simp [hp, wfFrom, h1, h2, h3, ih h4]
    · simp only [List.filter_cons, hp]
      exact wfFrom_mono (by omega) (ih h4)

theorem wfFrom_insertCell {lo a : Nat} {w : Byte} {m : Memory} (hm : wfFrom lo m = true)
    (hlo : lo ≤ a) (ha : a < Config.memSize) (hw : w ≠ resetByte a) (h : ∀ c ∈ m, c.1 ≠ a) :
    wfFrom lo (insertCell a w m) = true := by
  induction m generalizing lo with
  | nil => simp [insertCell, wfFrom, hlo, ha, hw]
  | cons c rest ih =>
    obtain ⟨b, u⟩ := c
    have hb : b ≠ a := h (b, u) (by simp)
    simp only [wfFrom, Bool.and_eq_true, decide_eq_true_eq] at hm
    obtain ⟨⟨⟨h1, h2⟩, h3⟩, h4⟩ := hm
    by_cases hab : a < b
    · simp [insertCell, hab, wfFrom, hlo, ha, hw, h2, h3, h4, Nat.succ_le_of_lt hab]
    · simp only [insertCell, hab, if_false, wfFrom, h1, h2, h3, decide_true, Bool.true_and]
      exact ih h4 (by omega) fun c hc => h c (by simp [hc])

/-- A write keeps the canonical form. -/
theorem wf_set {m : Memory} {a : Nat} (hm : m.wf = true) (ha : a < Config.memSize) (w : Byte) :
    (m.set a w).wf = true := by
  unfold wf set
  by_cases hw : w = resetByte a
  · simpa [hw] using wfFrom_filter _ hm
  · simpa [hw] using
      wfFrom_insertCell (wfFrom_filter _ hm) (Nat.zero_le a) ha hw (by simp)

theorem get_below {lo : Nat} {m : Memory} (hm : wfFrom lo m = true) {a : Nat} (h : a < lo) :
    m.get a = resetByte a := by
  induction m generalizing lo with
  | nil => rfl
  | cons c rest ih =>
    obtain ⟨b, w⟩ := c
    simp only [wfFrom, Bool.and_eq_true, decide_eq_true_eq] at hm
    obtain ⟨⟨⟨h1, -⟩, -⟩, h4⟩ := hm
    rw [get, if_neg (by omega)]
    exact ih h4 (by omega)

theorem ext_of_wfFrom {lo : Nat} {m n : Memory} (hm : wfFrom lo m = true) (hn : wfFrom lo n = true)
    (h : ∀ a, m.get a = n.get a) : m = n := by
  induction m generalizing lo n with
  | nil =>
    cases n with
    | nil => rfl
    | cons d rest =>
      obtain ⟨b, u⟩ := d
      have := h b
      simp_all [get, wfFrom]
  | cons c rest ih =>
    obtain ⟨a, w⟩ := c
    cases n with
    | nil =>
      have := h a
      simp_all [get, wfFrom]
    | cons d rest' =>
      obtain ⟨b, u⟩ := d
      simp only [wfFrom, Bool.and_eq_true, decide_eq_true_eq, bne_iff_ne] at hm hn
      obtain ⟨⟨⟨-, -⟩, hw⟩, hm⟩ := hm
      obtain ⟨⟨⟨-, -⟩, hu⟩, hn⟩ := hn
      have ha := h a
      have hb := h b
      rcases Nat.lt_trichotomy a b with hab | hab | hab
      · have := get_below hn (a := a) (by omega)
        simp_all [get, Nat.ne_of_gt hab]
      · subst hab
        have hwu : w = u := by simpa [get] using ha
        subst hwu
        have : rest = rest' := ih hm hn fun k => by
          by_cases hk : k ≤ a
          · rw [get_below hm (by omega), get_below hn (by omega)]
          · have := h k
            simpa [get, show a ≠ k by omega] using this
        rw [this]
      · have := get_below hm (a := b) (by omega)
        simp_all [get, Nat.ne_of_gt hab]

/-- Memories in canonical form that read the same are the same list. -/
theorem ext_of_wf {m n : Memory} (hm : m.wf = true) (hn : n.wf = true)
    (h : ∀ a, m.get a = n.get a) : m = n := ext_of_wfFrom hm hn h

/-! ## Ranges -/

@[simp] theorem getBytes_length (m : Memory) (base n : Nat) : (m.getBytes base n).length = n := by
  induction n generalizing base with
  | zero => rfl
  | succ n ih => simp [getBytes, ih]

theorem getBytes_getD (m : Memory) (base n k : Nat) (hk : k < n) :
    (m.getBytes base n).getD k 0 = m.get (base + k) := by
  induction n generalizing base k with
  | zero => omega
  | succ n ih =>
    cases k with
    | zero => simp [getBytes]
    | succ k =>
      have := ih (base + 1) k (by omega)
      simp only [getBytes, List.getD_cons_succ, this]
      congr 1; omega

/-- What memory reads after bytes were written from `base` up: the bytes there, the old ones elsewhere. -/
theorem get_setBytes (m : Memory) (base : Nat) (bytes : List Byte) (a : Nat) :
    (m.setBytes base bytes).get a =
      if base ≤ a ∧ a < base + bytes.length then bytes.getD (a - base) 0 else m.get a := by
  induction bytes generalizing m base with
  | nil => simp [setBytes]
  | cons w rest ih =>
    rw [setBytes, ih]
    by_cases h : a = base
    · subst h; simp
    · by_cases h2 : base + 1 ≤ a ∧ a < base + 1 + rest.length
      · have h3 : base ≤ a ∧ a < base + (w :: rest).length := by simp; omega
        rw [if_pos h2, if_pos h3, show a - base = (a - (base + 1)) + 1 by omega]
        simp
      · have h3 : ¬ (base ≤ a ∧ a < base + (w :: rest).length) := by simp; omega
        rw [if_neg h2, if_neg h3]; simp [h]

theorem wf_setBytes {m : Memory} (hm : m.wf = true) {base : Nat} {bytes : List Byte}
    (h : base + bytes.length ≤ Config.memSize) : (m.setBytes base bytes).wf = true := by
  induction bytes generalizing m base with
  | nil => exact hm
  | cons w rest ih =>
    simp only [List.length_cons] at h
    exact ih (wf_set hm (by omega) w) (by omega)

theorem inRange_iff {base n : Nat} : inRange base n = true ↔ n = 0 ∨ base + n ≤ 4096 := by
  simp [inRange]

/-- What `load` answers. -/
theorem load_eq_some {m : Memory} {base n : Nat} {bytes : List Byte} :
    m.load base n = some bytes ↔ (n = 0 ∨ base + n ≤ 4096) ∧ bytes = m.getBytes base n := by
  unfold load
  by_cases h : inRange base n = true
  · rw [if_pos h, ← inRange_iff]; simp [h, eq_comm]
  · rw [if_neg h, ← inRange_iff]; simp [h]

/-- When `load` is MEM_OOB. -/
theorem load_eq_none {m : Memory} {base n : Nat} :
    m.load base n = none ↔ n ≠ 0 ∧ 4096 < base + n := by
  unfold load
  have := @inRange_iff base n
  by_cases h : inRange base n = true
  · rw [if_pos h]; simp; rw [this] at h; omega
  · rw [if_neg h]; simp; rw [this] at h; omega

/-- What `store` answers: every byte of the range written, every other byte as before, the canonical
form kept. -/
theorem store_eq_some {m t : Memory} {base : Nat} {bytes : List Byte} :
    m.store base bytes = some t ↔
      (bytes.length = 0 ∨ base + bytes.length ≤ 4096) ∧ t = m.setBytes base bytes := by
  unfold store
  by_cases h : inRange base bytes.length = true
  · rw [if_pos h, ← inRange_iff]; simp [h, eq_comm]
  · rw [if_neg h, ← inRange_iff]; simp [h]

/-- When `store` is MEM_OOB. -/
theorem store_eq_none {m : Memory} {base : Nat} {bytes : List Byte} :
    m.store base bytes = none ↔ bytes.length ≠ 0 ∧ 4096 < base + bytes.length := by
  unfold store
  have := @inRange_iff base bytes.length
  by_cases h : inRange base bytes.length = true
  · rw [if_pos h]; simp; rw [this] at h; intro h'; simp [h'] at h; exact h
  · rw [if_neg h]; simp; rw [this] at h; simp at h; exact h

theorem wf_store {m t : Memory} (hm : m.wf = true) {base : Nat} {bytes : List Byte}
    (h : m.store base bytes = some t) : t.wf = true := by
  obtain ⟨hr, rfl⟩ := store_eq_some.1 h
  rcases hr with h0 | h0
  · rw [List.length_eq_zero_iff.1 h0]; exact hm
  · exact wf_setBytes hm h0

/-- Memory after reset is in canonical form. -/
theorem wf_reset : State.reset.mem.wf = true := rfl

end Sys2Proof.Machine.Memory
end

