-- ==== Sys2Proof/Laws/Operands.lean ====
section
/-! SUPPORT. What the operand forms and flags compute, in numbers. -/

namespace Sys2Proof.Machine

/-! ## Widened values and flags -/

@[simp] theorem zextAddr_toNat (nnn : Addr12) : (zextAddr nnn).toNat = nnn.toNat := by
  have := nnn.isLt
  simp only [zextAddr, BitVec.toNat_setWidth]; omega

@[simp] theorem zextByte_toNat (b : Byte) : (zextByte b).toNat = b.toNat := by
  have := b.isLt
  simp only [zextByte, BitVec.toNat_setWidth]; omega

/-- `V[x] * 5` fits 16 bits (R142). -/
@[simp] theorem glyphAddr_toNat (b : Byte) : (glyphAddr b).toNat = 5 * b.toNat := by
  have := b.isLt
  simp only [glyphAddr, BitVec.toNat_mul, zextByte_toNat, BitVec.toNat_ofNat,
    Config.glyphStride]
  omega

@[simp] theorem flag_toNat (c : Bool) : (flag c).toNat = if c then 1 else 0 := by
  cases c <;> rfl

@[simp] theorem flag_eq_one {c : Bool} : flag c = 1#8 ↔ c = true := by cases c <;> decide

theorem carryFlag_toNat (a b : Byte) :
    (carryFlag a b).toNat = if a.toNat + b.toNat > 255 then 1 else 0 := by
  simp [carryFlag]

theorem noBorrowFlag_toNat (a b : Byte) :
    (noBorrowFlag a b).toNat = if a.toNat < b.toNat then 0 else 1 := by
  by_cases h : a.toNat < b.toNat <;> simp [noBorrowFlag, h]

theorem lowBitFlag_toNat (a : Byte) : (lowBitFlag a).toNat = a.toNat % 2 := by
  simp [lowBitFlag, BitVec.toNat_and, Nat.and_one_is_mod]

theorem highBitFlag_toNat (a : Byte) : (highBitFlag a).toNat = a.toNat / 128 := by
  simp [highBitFlag, BitVec.toNat_ushiftRight, Nat.shiftRight_eq_div_pow]

/-! ## Digits, register ranges, keys -/

@[simp] theorem bcdDigits_length (b : Byte) : (bcdDigits b).length = 3 := rfl

/-- The three digits of a byte, hundreds first (R143). -/
theorem bcdDigits_toNat (b : Byte) :
    ((bcdDigits b).getD 0 0).toNat = b.toNat / 100 ∧
    ((bcdDigits b).getD 1 0).toNat = b.toNat / 10 % 10 ∧
    ((bcdDigits b).getD 2 0).toNat = b.toNat % 10 := by
  have := b.isLt
  refine ⟨?_, ?_, ?_⟩ <;> simp [bcdDigits] <;> omega

@[simp] theorem regsUpTo_length (v : Vector Byte 16) (x : Reg) :
    (regsUpTo v x).length = x.val + 1 := by
  simp [regsUpTo]

theorem regsUpTo_getD (v : Vector Byte 16) (x k : Reg) (h : k ≤ x) :
    (regsUpTo v x).getD k.val 0 = v.get k := by
  have h : k.val ≤ x.val := h
  have hk : k.val < (v.toList.take (x.val + 1)).length := by simp; omega
  rw [regsUpTo, List.getD_eq_getElem _ _ hk]
  simp [Vector.get_eq_getElem]

/-- What the register file holds after bytes were loaded from register `k` up. -/
theorem loadRegsFrom_get (v : Vector Byte 16) (k : Nat) (bytes : List Byte) (j : Reg) :
    (loadRegsFrom v k bytes).get j =
      if k ≤ j.val ∧ j.val < k + bytes.length then bytes.getD (j.val - k) 0 else v.get j := by
  induction bytes generalizing v k with
  | nil => simp [loadRegsFrom]
  | cons b rest ih =>
    rw [loadRegsFrom, ih]
    by_cases h : k = j.val
    · subst h
      rw [if_neg (by omega), if_pos (by simp)]
      simp [Vector.get_eq_getElem]
    · by_cases h2 : k + 1 ≤ j.val ∧ j.val < k + 1 + rest.length
      · rw [if_pos h2, if_pos (by simp; omega), show j.val - k = (j.val - (k + 1)) + 1 by omega]
        simp
      · rw [if_neg h2, if_neg (by simp; omega)]
        simp [Vector.get_eq_getElem, h]

theorem keyIndex_eq_some {b : Byte} {k : Fin 16} : keyIndex b = some k ↔ b.toNat = k.val := by
  unfold keyIndex
  by_cases h : b.toNat < 16
  · simp [h, Fin.ext_iff]
  · simp [h]; omega

theorem keyIndex_eq_none {b : Byte} : keyIndex b = none ↔ 16 ≤ b.toNat := by
  unfold keyIndex
  by_cases h : b.toNat < 16
  · simp [h]
  · simp [h]; omega

@[simp] theorem keyByte_toNat (k : Fin 16) : (keyByte k).toNat = k.val := by
  have := k.isLt
  simp only [keyByte, BitVec.toNat_ofNat]; omega

theorem foldl_held (key : Vector Bool 16) (l : List (Fin 16)) (acc : Option (Fin 16)) :
    l.foldl (fun found i => if key.get i then some i else found) acc =
      ((l.filter key.get).getLast?).or acc := by
  induction l generalizing acc with
  | nil => simp
  | cons i l ih =>
    rw [List.foldl_cons, ih]
    by_cases h : key.get i = true
    · simp only [h, if_true, List.filter_cons_of_pos, List.getLast?_cons]
      cases (l.filter key.get).getLast? <;> simp
    · simp [h]

/-- The scan of R162 finds nothing exactly when no key is held. -/
theorem heldKey_eq_none {key : Vector Bool 16} : heldKey key = none ↔ ∀ k, key.get k = false := by
  simp only [heldKey, foldl_held, Option.or_none, List.getLast?_eq_none_iff,
    List.filter_eq_nil_iff, List.mem_finRange, forall_const, Bool.not_eq_true]

theorem finRange_pairwise : (List.finRange 16).Pairwise (· < ·) := by decide

/-- The scan of R162 finds the highest held key. -/
theorem heldKey_eq_some {key : Vector Bool 16} {k : Fin 16} :
    heldKey key = some k ↔ key.get k = true ∧ ∀ j, k < j → key.get j = false := by
  have hs : ∀ k, heldKey key = some k →
      key.get k = true ∧ ∀ j, k < j → key.get j = false := by
    intro k h
    simp only [heldKey, foldl_held, Option.or_none] at h
    obtain ⟨l, hl⟩ := List.getLast?_eq_some_iff.1 h
    have hp := (finRange_pairwise.filter key.get)
    rw [hl, List.pairwise_append] at hp
    have hmem : ∀ j, key.get j = true → j ∈ l ++ [k] := fun j hj => by
      rw [← hl]; simp [hj]
    refine ⟨?_, fun j hj => ?_⟩
    · have : k ∈ (List.finRange 16).filter key.get := by rw [hl]; simp
      exact (List.mem_filter.1 this).2
    · by_contra hne
      rcases List.mem_append.1 (hmem j (by simpa using hne)) with h1 | h1
      · exact absurd (hp.2.2 j h1 k (by simp)) (by omega)
      · simp at h1; omega
  refine ⟨hs k, fun ⟨h1, h2⟩ => ?_⟩
  cases hk : heldKey key with
  | none => simp [heldKey_eq_none.1 hk k] at h1
  | some j =>
    obtain ⟨g1, g2⟩ := hs j hk
    rcases lt_trichotomy j k with h | h | h
    · simp [g2 k h] at h1
    · rw [h]
    · simp [h2 j h] at g1

end Sys2Proof.Machine
end

