-- ==== Sys2Proof/Laws/PerInstr.lean ====
section
/-! SUPPORT. Per instruction: the encoding lies in the instruction's own row of the opcode table (R75),
one lemma per constructor. -/

namespace Sys2Proof.Laws.OpcodeRow

/-- The word of an instruction is selected by the mask and match of its row. -/
def Statement (i : Instr) : Prop := i.mnemonic.selects (encode i) = true

theorem nop : Statement (.nop) := by unfold Statement; decide

theorem cls : Statement (.cls) := by unfold Statement; decide

theorem ret : Statement (.ret) := by unfold Statement; decide

theorem jp (nnn : Addr12) : Statement (.jp nnn) := by
  rw [Statement, selects_iff]; exact (and_F000 _).trans (by simp [encode, Instr.mnemonic, Mnemonic.pattern]; omega)

theorem call (nnn : Addr12) : Statement (.call nnn) := by
  rw [Statement, selects_iff]; exact (and_F000 _).trans (by simp [encode, Instr.mnemonic, Mnemonic.pattern]; omega)

theorem seImm (x : Reg) (kk : Byte) : Statement (.seImm x kk) := by
  rw [Statement, selects_iff]; exact (and_F000 _).trans (by simp [encode, Instr.mnemonic, Mnemonic.pattern]; omega)

theorem sneImm (x : Reg) (kk : Byte) : Statement (.sneImm x kk) := by
  rw [Statement, selects_iff]; exact (and_F000 _).trans (by simp [encode, Instr.mnemonic, Mnemonic.pattern]; omega)

theorem seReg (x y : Reg) : Statement (.seReg x y) := by
  rw [Statement, selects_iff]; exact (and_F00F _).trans (by simp [encode, Instr.mnemonic, Mnemonic.pattern]; omega)

theorem ldImm (x : Reg) (kk : Byte) : Statement (.ldImm x kk) := by
  rw [Statement, selects_iff]; exact (and_F000 _).trans (by simp [encode, Instr.mnemonic, Mnemonic.pattern]; omega)

theorem addImm (x : Reg) (kk : Byte) : Statement (.addImm x kk) := by
  rw [Statement, selects_iff]; exact (and_F000 _).trans (by simp [encode, Instr.mnemonic, Mnemonic.pattern]; omega)

theorem ldReg (x y : Reg) : Statement (.ldReg x y) := by
  rw [Statement, selects_iff]; exact (and_F00F _).trans (by simp [encode, Instr.mnemonic, Mnemonic.pattern]; omega)

theorem or (x y : Reg) : Statement (.or x y) := by
  rw [Statement, selects_iff]; exact (and_F00F _).trans (by simp [encode, Instr.mnemonic, Mnemonic.pattern]; omega)

theorem and (x y : Reg) : Statement (.and x y) := by
  rw [Statement, selects_iff]; exact (and_F00F _).trans (by simp [encode, Instr.mnemonic, Mnemonic.pattern]; omega)

theorem xor (x y : Reg) : Statement (.xor x y) := by
  rw [Statement, selects_iff]; exact (and_F00F _).trans (by simp [encode, Instr.mnemonic, Mnemonic.pattern]; omega)

theorem addReg (x y : Reg) : Statement (.addReg x y) := by
  rw [Statement, selects_iff]; exact (and_F00F _).trans (by simp [encode, Instr.mnemonic, Mnemonic.pattern]; omega)

theorem sub (x y : Reg) : Statement (.sub x y) := by
  rw [Statement, selects_iff]; exact (and_F00F _).trans (by simp [encode, Instr.mnemonic, Mnemonic.pattern]; omega)

theorem shr (x y : Reg) : Statement (.shr x y) := by
  rw [Statement, selects_iff]; exact (and_F00F _).trans (by simp [encode, Instr.mnemonic, Mnemonic.pattern]; omega)

theorem subn (x y : Reg) : Statement (.subn x y) := by
  rw [Statement, selects_iff]; exact (and_F00F _).trans (by simp [encode, Instr.mnemonic, Mnemonic.pattern]; omega)

theorem shl (x y : Reg) : Statement (.shl x y) := by
  rw [Statement, selects_iff]; exact (and_F00F _).trans (by simp [encode, Instr.mnemonic, Mnemonic.pattern]; omega)

theorem sneReg (x y : Reg) : Statement (.sneReg x y) := by
  rw [Statement, selects_iff]; exact (and_F00F _).trans (by simp [encode, Instr.mnemonic, Mnemonic.pattern]; omega)

theorem ldI (nnn : Addr12) : Statement (.ldI nnn) := by
  rw [Statement, selects_iff]; exact (and_F000 _).trans (by simp [encode, Instr.mnemonic, Mnemonic.pattern]; omega)

theorem jpV0 (nnn : Addr12) : Statement (.jpV0 nnn) := by
  rw [Statement, selects_iff]; exact (and_F000 _).trans (by simp [encode, Instr.mnemonic, Mnemonic.pattern]; omega)

theorem rnd (x : Reg) (kk : Byte) : Statement (.rnd x kk) := by
  rw [Statement, selects_iff]; exact (and_F000 _).trans (by simp [encode, Instr.mnemonic, Mnemonic.pattern]; omega)

theorem drw (x y : Reg) (n : Fin 16) : Statement (.drw x y n) := by
  rw [Statement, selects_iff]; exact (and_F000 _).trans (by simp [encode, Instr.mnemonic, Mnemonic.pattern]; omega)

theorem skp (x : Reg) : Statement (.skp x) := by
  rw [Statement, selects_iff]; exact (and_F0FF _).trans (by simp [encode, Instr.mnemonic, Mnemonic.pattern]; omega)

theorem sknp (x : Reg) : Statement (.sknp x) := by
  rw [Statement, selects_iff]; exact (and_F0FF _).trans (by simp [encode, Instr.mnemonic, Mnemonic.pattern]; omega)

theorem ldVxDt (x : Reg) : Statement (.ldVxDt x) := by
  rw [Statement, selects_iff]; exact (and_F0FF _).trans (by simp [encode, Instr.mnemonic, Mnemonic.pattern]; omega)

theorem ldK (x : Reg) : Statement (.ldK x) := by
  rw [Statement, selects_iff]; exact (and_F0FF _).trans (by simp [encode, Instr.mnemonic, Mnemonic.pattern]; omega)

theorem ldDtVx (x : Reg) : Statement (.ldDtVx x) := by
  rw [Statement, selects_iff]; exact (and_F0FF _).trans (by simp [encode, Instr.mnemonic, Mnemonic.pattern]; omega)

theorem ldStVx (x : Reg) : Statement (.ldStVx x) := by
  rw [Statement, selects_iff]; exact (and_F0FF _).trans (by simp [encode, Instr.mnemonic, Mnemonic.pattern]; omega)

theorem addI (x : Reg) : Statement (.addI x) := by
  rw [Statement, selects_iff]; exact (and_F0FF _).trans (by simp [encode, Instr.mnemonic, Mnemonic.pattern]; omega)

theorem ldF (x : Reg) : Statement (.ldF x) := by
  rw [Statement, selects_iff]; exact (and_F0FF _).trans (by simp [encode, Instr.mnemonic, Mnemonic.pattern]; omega)

theorem ldB (x : Reg) : Statement (.ldB x) := by
  rw [Statement, selects_iff]; exact (and_F0FF _).trans (by simp [encode, Instr.mnemonic, Mnemonic.pattern]; omega)

theorem stRegs (x : Reg) : Statement (.stRegs x) := by
  rw [Statement, selects_iff]; exact (and_F0FF _).trans (by simp [encode, Instr.mnemonic, Mnemonic.pattern]; omega)

theorem ldRegs (x : Reg) : Statement (.ldRegs x) := by
  rw [Statement, selects_iff]; exact (and_F0FF _).trans (by simp [encode, Instr.mnemonic, Mnemonic.pattern]; omega)

end Sys2Proof.Laws.OpcodeRow
end

