-- ==== Sys2Proof/Laws/State.lean ====
section
/-! SUPPORT. One lemma per field per update, so that no proof unfolds a record update; and the register
file's read after write. -/

namespace Sys2Proof.Machine.State

variable (s : State)

@[simp] theorem setV_mem (x : Reg) (b : Byte) : (s.setV x b).mem = s.mem := rfl
@[simp] theorem setV_pc (x : Reg) (b : Byte) : (s.setV x b).pc = s.pc := rfl
@[simp] theorem setV_v (x : Reg) (b : Byte) : (s.setV x b).v = s.v.set x b := rfl
@[simp] theorem setV_i (x : Reg) (b : Byte) : (s.setV x b).i = s.i := rfl
@[simp] theorem setV_stack (x : Reg) (b : Byte) : (s.setV x b).stack = s.stack := rfl
@[simp] theorem setV_sp (x : Reg) (b : Byte) : (s.setV x b).sp = s.sp := rfl
@[simp] theorem setV_dt (x : Reg) (b : Byte) : (s.setV x b).dt = s.dt := rfl
@[simp] theorem setV_st (x : Reg) (b : Byte) : (s.setV x b).st = s.st := rfl
@[simp] theorem setV_fb (x : Reg) (b : Byte) : (s.setV x b).fb = s.fb := rfl
@[simp] theorem setV_key (x : Reg) (b : Byte) : (s.setV x b).key = s.key := rfl
@[simp] theorem setV_fault (x : Reg) (b : Byte) : (s.setV x b).fault = s.fault := rfl
@[simp] theorem setV_draws (x : Reg) (b : Byte) : (s.setV x b).draws = s.draws := rfl

@[simp] theorem setVs_mem (v : Vector Byte 16) : (s.setVs v).mem = s.mem := rfl
@[simp] theorem setVs_pc (v : Vector Byte 16) : (s.setVs v).pc = s.pc := rfl
@[simp] theorem setVs_v (v : Vector Byte 16) : (s.setVs v).v = v := rfl
@[simp] theorem setVs_i (v : Vector Byte 16) : (s.setVs v).i = s.i := rfl
@[simp] theorem setVs_stack (v : Vector Byte 16) : (s.setVs v).stack = s.stack := rfl
@[simp] theorem setVs_sp (v : Vector Byte 16) : (s.setVs v).sp = s.sp := rfl
@[simp] theorem setVs_dt (v : Vector Byte 16) : (s.setVs v).dt = s.dt := rfl
@[simp] theorem setVs_st (v : Vector Byte 16) : (s.setVs v).st = s.st := rfl
@[simp] theorem setVs_fb (v : Vector Byte 16) : (s.setVs v).fb = s.fb := rfl
@[simp] theorem setVs_key (v : Vector Byte 16) : (s.setVs v).key = s.key := rfl
@[simp] theorem setVs_fault (v : Vector Byte 16) : (s.setVs v).fault = s.fault := rfl
@[simp] theorem setVs_draws (v : Vector Byte 16) : (s.setVs v).draws = s.draws := rfl

@[simp] theorem setPc_mem (t : Word) : (s.setPc t).mem = s.mem := rfl
@[simp] theorem setPc_pc (t : Word) : (s.setPc t).pc = t := rfl
@[simp] theorem setPc_v (t : Word) : (s.setPc t).v = s.v := rfl
@[simp] theorem setPc_i (t : Word) : (s.setPc t).i = s.i := rfl
@[simp] theorem setPc_stack (t : Word) : (s.setPc t).stack = s.stack := rfl
@[simp] theorem setPc_sp (t : Word) : (s.setPc t).sp = s.sp := rfl
@[simp] theorem setPc_dt (t : Word) : (s.setPc t).dt = s.dt := rfl
@[simp] theorem setPc_st (t : Word) : (s.setPc t).st = s.st := rfl
@[simp] theorem setPc_fb (t : Word) : (s.setPc t).fb = s.fb := rfl
@[simp] theorem setPc_key (t : Word) : (s.setPc t).key = s.key := rfl
@[simp] theorem setPc_fault (t : Word) : (s.setPc t).fault = s.fault := rfl
@[simp] theorem setPc_draws (t : Word) : (s.setPc t).draws = s.draws := rfl
@[simp] theorem setPc_getV (t : Word) (k : Reg) : (s.setPc t).getV k = s.getV k := rfl

@[simp] theorem setI_mem (w : Word) : (s.setI w).mem = s.mem := rfl
@[simp] theorem setI_pc (w : Word) : (s.setI w).pc = s.pc := rfl
@[simp] theorem setI_v (w : Word) : (s.setI w).v = s.v := rfl
@[simp] theorem setI_i (w : Word) : (s.setI w).i = w := rfl
@[simp] theorem setI_stack (w : Word) : (s.setI w).stack = s.stack := rfl
@[simp] theorem setI_sp (w : Word) : (s.setI w).sp = s.sp := rfl
@[simp] theorem setI_dt (w : Word) : (s.setI w).dt = s.dt := rfl
@[simp] theorem setI_st (w : Word) : (s.setI w).st = s.st := rfl
@[simp] theorem setI_fb (w : Word) : (s.setI w).fb = s.fb := rfl
@[simp] theorem setI_key (w : Word) : (s.setI w).key = s.key := rfl
@[simp] theorem setI_fault (w : Word) : (s.setI w).fault = s.fault := rfl
@[simp] theorem setI_draws (w : Word) : (s.setI w).draws = s.draws := rfl
@[simp] theorem setI_getV (w : Word) (k : Reg) : (s.setI w).getV k = s.getV k := rfl

@[simp] theorem setDt_mem (b : Byte) : (s.setDt b).mem = s.mem := rfl
@[simp] theorem setDt_pc (b : Byte) : (s.setDt b).pc = s.pc := rfl
@[simp] theorem setDt_v (b : Byte) : (s.setDt b).v = s.v := rfl
@[simp] theorem setDt_i (b : Byte) : (s.setDt b).i = s.i := rfl
@[simp] theorem setDt_stack (b : Byte) : (s.setDt b).stack = s.stack := rfl
@[simp] theorem setDt_sp (b : Byte) : (s.setDt b).sp = s.sp := rfl
@[simp] theorem setDt_dt (b : Byte) : (s.setDt b).dt = b := rfl
@[simp] theorem setDt_st (b : Byte) : (s.setDt b).st = s.st := rfl
@[simp] theorem setDt_fb (b : Byte) : (s.setDt b).fb = s.fb := rfl
@[simp] theorem setDt_key (b : Byte) : (s.setDt b).key = s.key := rfl
@[simp] theorem setDt_fault (b : Byte) : (s.setDt b).fault = s.fault := rfl
@[simp] theorem setDt_draws (b : Byte) : (s.setDt b).draws = s.draws := rfl
@[simp] theorem setDt_getV (b : Byte) (k : Reg) : (s.setDt b).getV k = s.getV k := rfl

@[simp] theorem setSt_mem (b : Byte) : (s.setSt b).mem = s.mem := rfl
@[simp] theorem setSt_pc (b : Byte) : (s.setSt b).pc = s.pc := rfl
@[simp] theorem setSt_v (b : Byte) : (s.setSt b).v = s.v := rfl
@[simp] theorem setSt_i (b : Byte) : (s.setSt b).i = s.i := rfl
@[simp] theorem setSt_stack (b : Byte) : (s.setSt b).stack = s.stack := rfl
@[simp] theorem setSt_sp (b : Byte) : (s.setSt b).sp = s.sp := rfl
@[simp] theorem setSt_dt (b : Byte) : (s.setSt b).dt = s.dt := rfl
@[simp] theorem setSt_st (b : Byte) : (s.setSt b).st = b := rfl
@[simp] theorem setSt_fb (b : Byte) : (s.setSt b).fb = s.fb := rfl
@[simp] theorem setSt_key (b : Byte) : (s.setSt b).key = s.key := rfl
@[simp] theorem setSt_fault (b : Byte) : (s.setSt b).fault = s.fault := rfl
@[simp] theorem setSt_draws (b : Byte) : (s.setSt b).draws = s.draws := rfl
@[simp] theorem setSt_getV (b : Byte) (k : Reg) : (s.setSt b).getV k = s.getV k := rfl

@[simp] theorem setMem_mem (m : Memory) : (s.setMem m).mem = m := rfl
@[simp] theorem setMem_pc (m : Memory) : (s.setMem m).pc = s.pc := rfl
@[simp] theorem setMem_v (m : Memory) : (s.setMem m).v = s.v := rfl
@[simp] theorem setMem_i (m : Memory) : (s.setMem m).i = s.i := rfl
@[simp] theorem setMem_stack (m : Memory) : (s.setMem m).stack = s.stack := rfl
@[simp] theorem setMem_sp (m : Memory) : (s.setMem m).sp = s.sp := rfl
@[simp] theorem setMem_dt (m : Memory) : (s.setMem m).dt = s.dt := rfl
@[simp] theorem setMem_st (m : Memory) : (s.setMem m).st = s.st := rfl
@[simp] theorem setMem_fb (m : Memory) : (s.setMem m).fb = s.fb := rfl
@[simp] theorem setMem_key (m : Memory) : (s.setMem m).key = s.key := rfl
@[simp] theorem setMem_fault (m : Memory) : (s.setMem m).fault = s.fault := rfl
@[simp] theorem setMem_draws (m : Memory) : (s.setMem m).draws = s.draws := rfl
@[simp] theorem setMem_getV (m : Memory) (k : Reg) : (s.setMem m).getV k = s.getV k := rfl

@[simp] theorem setFb_mem (fb : Framebuffer) : (s.setFb fb).mem = s.mem := rfl
@[simp] theorem setFb_pc (fb : Framebuffer) : (s.setFb fb).pc = s.pc := rfl
@[simp] theorem setFb_v (fb : Framebuffer) : (s.setFb fb).v = s.v := rfl
@[simp] theorem setFb_i (fb : Framebuffer) : (s.setFb fb).i = s.i := rfl
@[simp] theorem setFb_stack (fb : Framebuffer) : (s.setFb fb).stack = s.stack := rfl
@[simp] theorem setFb_sp (fb : Framebuffer) : (s.setFb fb).sp = s.sp := rfl
@[simp] theorem setFb_dt (fb : Framebuffer) : (s.setFb fb).dt = s.dt := rfl
@[simp] theorem setFb_st (fb : Framebuffer) : (s.setFb fb).st = s.st := rfl
@[simp] theorem setFb_fb (fb : Framebuffer) : (s.setFb fb).fb = fb := rfl
@[simp] theorem setFb_key (fb : Framebuffer) : (s.setFb fb).key = s.key := rfl
@[simp] theorem setFb_fault (fb : Framebuffer) : (s.setFb fb).fault = s.fault := rfl
@[simp] theorem setFb_draws (fb : Framebuffer) : (s.setFb fb).draws = s.draws := rfl
@[simp] theorem setFb_getV (fb : Framebuffer) (k : Reg) : (s.setFb fb).getV k = s.getV k := rfl

@[simp] theorem setKeys_mem (key : Vector Bool 16) : (s.setKeys key).mem = s.mem := rfl
@[simp] theorem setKeys_pc (key : Vector Bool 16) : (s.setKeys key).pc = s.pc := rfl
@[simp] theorem setKeys_v (key : Vector Bool 16) : (s.setKeys key).v = s.v := rfl
@[simp] theorem setKeys_i (key : Vector Bool 16) : (s.setKeys key).i = s.i := rfl
@[simp] theorem setKeys_stack (key : Vector Bool 16) : (s.setKeys key).stack = s.stack := rfl
@[simp] theorem setKeys_sp (key : Vector Bool 16) : (s.setKeys key).sp = s.sp := rfl
@[simp] theorem setKeys_dt (key : Vector Bool 16) : (s.setKeys key).dt = s.dt := rfl
@[simp] theorem setKeys_st (key : Vector Bool 16) : (s.setKeys key).st = s.st := rfl
@[simp] theorem setKeys_fb (key : Vector Bool 16) : (s.setKeys key).fb = s.fb := rfl
@[simp] theorem setKeys_key (key : Vector Bool 16) : (s.setKeys key).key = key := rfl
@[simp] theorem setKeys_fault (key : Vector Bool 16) : (s.setKeys key).fault = s.fault := rfl
@[simp] theorem setKeys_draws (key : Vector Bool 16) : (s.setKeys key).draws = s.draws := rfl
@[simp] theorem setKeys_getV (key : Vector Bool 16) (k : Reg) : (s.setKeys key).getV k = s.getV k := rfl

@[simp] theorem setStack_mem (stack : Vector Word 16) (sp : Fin 17) : (s.setStack stack sp).mem = s.mem := rfl
@[simp] theorem setStack_pc (stack : Vector Word 16) (sp : Fin 17) : (s.setStack stack sp).pc = s.pc := rfl
@[simp] theorem setStack_v (stack : Vector Word 16) (sp : Fin 17) : (s.setStack stack sp).v = s.v := rfl
@[simp] theorem setStack_i (stack : Vector Word 16) (sp : Fin 17) : (s.setStack stack sp).i = s.i := rfl
@[simp] theorem setStack_stack (stack : Vector Word 16) (sp : Fin 17) : (s.setStack stack sp).stack = stack := rfl
@[simp] theorem setStack_sp (stack : Vector Word 16) (sp : Fin 17) : (s.setStack stack sp).sp = sp := rfl
@[simp] theorem setStack_dt (stack : Vector Word 16) (sp : Fin 17) : (s.setStack stack sp).dt = s.dt := rfl
@[simp] theorem setStack_st (stack : Vector Word 16) (sp : Fin 17) : (s.setStack stack sp).st = s.st := rfl
@[simp] theorem setStack_fb (stack : Vector Word 16) (sp : Fin 17) : (s.setStack stack sp).fb = s.fb := rfl
@[simp] theorem setStack_key (stack : Vector Word 16) (sp : Fin 17) : (s.setStack stack sp).key = s.key := rfl
@[simp] theorem setStack_fault (stack : Vector Word 16) (sp : Fin 17) : (s.setStack stack sp).fault = s.fault := rfl
@[simp] theorem setStack_draws (stack : Vector Word 16) (sp : Fin 17) : (s.setStack stack sp).draws = s.draws := rfl
@[simp] theorem setStack_getV (stack : Vector Word 16) (sp : Fin 17) (k : Reg) : (s.setStack stack sp).getV k = s.getV k := rfl

@[simp] theorem setFault_mem (f : FaultRecord) : (s.setFault f).mem = s.mem := rfl
@[simp] theorem setFault_pc (f : FaultRecord) : (s.setFault f).pc = s.pc := rfl
@[simp] theorem setFault_v (f : FaultRecord) : (s.setFault f).v = s.v := rfl
@[simp] theorem setFault_i (f : FaultRecord) : (s.setFault f).i = s.i := rfl
@[simp] theorem setFault_stack (f : FaultRecord) : (s.setFault f).stack = s.stack := rfl
@[simp] theorem setFault_sp (f : FaultRecord) : (s.setFault f).sp = s.sp := rfl
@[simp] theorem setFault_dt (f : FaultRecord) : (s.setFault f).dt = s.dt := rfl
@[simp] theorem setFault_st (f : FaultRecord) : (s.setFault f).st = s.st := rfl
@[simp] theorem setFault_fb (f : FaultRecord) : (s.setFault f).fb = s.fb := rfl
@[simp] theorem setFault_key (f : FaultRecord) : (s.setFault f).key = s.key := rfl
@[simp] theorem setFault_fault (f : FaultRecord) : (s.setFault f).fault = f := rfl
@[simp] theorem setFault_draws (f : FaultRecord) : (s.setFault f).draws = s.draws := rfl
@[simp] theorem setFault_getV (f : FaultRecord) (k : Reg) : (s.setFault f).getV k = s.getV k := rfl

@[simp] theorem countDraw_mem : (s.countDraw).mem = s.mem := rfl
@[simp] theorem countDraw_pc : (s.countDraw).pc = s.pc := rfl
@[simp] theorem countDraw_v : (s.countDraw).v = s.v := rfl
@[simp] theorem countDraw_i : (s.countDraw).i = s.i := rfl
@[simp] theorem countDraw_stack : (s.countDraw).stack = s.stack := rfl
@[simp] theorem countDraw_sp : (s.countDraw).sp = s.sp := rfl
@[simp] theorem countDraw_dt : (s.countDraw).dt = s.dt := rfl
@[simp] theorem countDraw_st : (s.countDraw).st = s.st := rfl
@[simp] theorem countDraw_fb : (s.countDraw).fb = s.fb := rfl
@[simp] theorem countDraw_key : (s.countDraw).key = s.key := rfl
@[simp] theorem countDraw_fault : (s.countDraw).fault = s.fault := rfl
@[simp] theorem countDraw_draws : (s.countDraw).draws = s.draws + 1 := rfl
@[simp] theorem countDraw_getV (k : Reg) : (s.countDraw).getV k = s.getV k := rfl

/-- Read after write of a register (R12, R21). -/
@[simp] theorem getV_setV (x k : Reg) (b : Byte) :
    (s.setV x b).getV k = if k = x then b else s.getV k := by
  obtain ⟨x, hx⟩ := x
  obtain ⟨k, hk⟩ := k
  simp only [getV, setV, Vector.get_eq_getElem, Vector.getElem_set, Fin.mk.injEq]
  by_cases h : x = k
  · subst h; simp
  · simp [h, Ne.symm h]

@[simp] theorem setVs_getV (v : Vector Byte 16) (k : Reg) : (s.setVs v).getV k = v.get k := rfl

@[simp] theorem advance_eq : s.advance = s.setPc (s.pc + 2) := rfl
@[simp] theorem skip_eq : s.skip = s.setPc (s.pc + 2) := rfl
@[simp] theorem rewind_eq : s.rewind = s.setPc (s.pc - 2) := rfl
@[simp] theorem takeFault_eq (c : Cause) (op a : Word) :
    s.takeFault c op a = s.setFault { valid := true, cause := c, opcode := op, addr := a } := rfl
@[simp] theorem raiseFrom_eq (c : Cause) (i : Instr) :
    s.raiseFrom c i = (s.setPc (s.pc - 2)).setFault
      { valid := true, cause := c, opcode := encode i, addr := s.pc - 2 } := rfl

@[simp] theorem setPc_setPc (a b : Word) : (s.setPc a).setPc b = s.setPc b := rfl
@[simp] theorem setPc_pc_self : s.setPc s.pc = s := rfl
@[simp] theorem setVs_v_self : s.setVs s.v = s := rfl
@[simp] theorem setFault_setFault (f g : FaultRecord) :
    (s.setFault f).setFault g = s.setFault g := rfl

/-- A register write is a change of the register file alone. -/
theorem setV_eq_setVs (x : Reg) (b : Byte) : s.setV x b = s.setVs (s.v.set x b) := rfl

end Sys2Proof.Machine.State

namespace Sys2Proof.Machine

/-- Writing one register changes only that register. -/
theorem onlyRegs_setV (s : State) (x : Reg) (b : Byte) : OnlyRegs [x] s (s.setV x b) :=
  ⟨rfl, fun k hk => by simp at hk; simp [hk]⟩

/-- Writing two registers changes only those. -/
theorem onlyRegs_setV_setV (s : State) (x y : Reg) (b c : Byte) :
    OnlyRegs [x, y] s ((s.setV x b).setV y c) :=
  ⟨rfl, fun k hk => by simp at hk; simp [hk]⟩

end Sys2Proof.Machine
end

