-- ==== Sys2Proof/Laws/Ops.lean ====
section
/-! SUPPORT. What each shared operation can answer, once, for the proofs to cite: the stack controller,
the fetch, the skips, the stores, the loads, and STEP. -/

namespace Sys2Proof.Machine

namespace State

/-- Push succeeds on a stack that is not full (R100). -/
theorem push_of_lt {s : State} (h : s.sp.val < 16) (w : Word) :
    s.push w = some (s.setStack (s.stack.set s.sp.val w h) ⟨s.sp.val + 1, by omega⟩) := by
  simp [push, h]

theorem push_of_full {s : State} (h : s.sp = 16) (w : Word) : s.push w = none := by
  simp [push, h]

/-- Pop succeeds on a stack that is not empty (R101). -/
theorem pop_of_pos {s : State} (h : 0 < s.sp.val) :
    s.pop = some (s.stack[s.sp.val - 1]'(by omega),
      s.setStack s.stack ⟨s.sp.val - 1, by omega⟩) := by
  simp [pop, h]

theorem pop_of_empty {s : State} (h : s.sp = 0) : s.pop = none := by
  simp [pop, h]

/-- The fetch of R91. -/
theorem fetch_of_le {s : State} (h : s.pc.toNat + 1 ≤ 4095) :
    s.fetch = some (wordOfBytes (s.mem.get s.pc.toNat) (s.mem.get (s.pc.toNat + 1))) := by
  simp [fetch, Nat.not_lt.2 h]

theorem fetch_of_gt {s : State} (h : 4095 < s.pc.toNat + 1) : s.fetch = none := by
  simp [fetch, h]

theorem fetch_eq_none {s : State} : s.fetch = none ↔ 4095 < s.pc.toNat + 1 := by
  refine ⟨fun h => ?_, fetch_of_gt⟩
  by_contra hle
  rw [fetch_of_le (by omega)] at h
  cases h

/-- A fetched word comes from a `pc` whose advance does not wrap. -/
theorem pc_of_fetch {s : State} {op : Word} (h : s.fetch = some op) : s.pc.toNat ≤ 4094 := by
  by_contra hgt
  rw [fetch_of_gt (by omega)] at h
  cases h

end State

/-- Undoing the fetch's advance gives the instruction's address back. -/
@[simp] theorem pc_add_sub_two (a : Word) : a + 2 - 2 = a := by
  rw [BitVec.add_sub_cancel]

/-! ## Shared meanings -/

theorem raise_eq (c : Cause) (i : Instr) (s : State) : raise c i s = .next (s.raiseFrom c i) := rfl

theorem skipIf_eq (c : Bool) (s : State) :
    skipIf c s = .next (s.setPc (if c then s.pc + 2 else s.pc)) := by
  cases c <;> rfl

/-- A store from `I` upward: all of its bytes, or MEM_OOB (R59). -/
theorem storeAtI_cases (bytes : List Byte) (i : Instr) (s : State) :
    ((bytes.length = 0 ∨ s.i.toNat + bytes.length ≤ 4096) ∧
      storeAtI bytes i s = .next (s.setMem (s.mem.setBytes s.i.toNat bytes))) ∨
    (bytes.length ≠ 0 ∧ 4096 < s.i.toNat + bytes.length ∧
      storeAtI bytes i s = .next (s.raiseFrom .memOob i)) := by
  unfold storeAtI
  cases h : s.mem.store s.i.toNat bytes with
  | some m =>
    obtain ⟨hr, rfl⟩ := Memory.store_eq_some.1 h
    exact .inl ⟨hr, rfl⟩
  | none =>
    obtain ⟨h0, h1⟩ := Memory.store_eq_none.1 h
    exact .inr ⟨h0, h1, rfl⟩

/-- LD_REGS: registers V0..Vx from memory, or MEM_OOB. -/
theorem execLdRegs_cases (x : Reg) (s : State) :
    (s.i.toNat + x.val ≤ 4095 ∧ execLdRegs x s =
      .next (s.setVs (loadRegsFrom s.v 0 (s.mem.getBytes s.i.toNat (x.val + 1))))) ∨
    (4095 < s.i.toNat + x.val ∧ execLdRegs x s = .next (s.raiseFrom .memOob (.ldRegs x))) := by
  unfold execLdRegs
  cases h : s.mem.load s.i.toNat (x.val + 1) with
  | some bytes =>
    obtain ⟨hr, rfl⟩ := Memory.load_eq_some.1 h
    exact .inl ⟨by omega, rfl⟩
  | none =>
    obtain ⟨h0, h1⟩ := Memory.load_eq_none.1 h
    exact .inr ⟨by omega, rfl⟩

/-- DRW: the sprite's rows drawn and VF written, or MEM_OOB. -/
theorem execDrw_cases (x y : Reg) (n : Fin 16) (s : State) :
    ((n.val = 0 ∨ s.i.toNat + n.val ≤ 4096) ∧
      ∃ d, d = drawSprite s.fb (s.getV x).toNat (s.getV y).toNat
          (s.mem.getBytes s.i.toNat n.val) ∧
        execDrw x y n s = .next ((s.setFb d.1).setV regF (flag d.2))) ∨
    (n.val ≠ 0 ∧ 4096 < s.i.toNat + n.val ∧
      execDrw x y n s = .next (s.raiseFrom .memOob (.drw x y n))) := by
  unfold execDrw
  cases h : s.mem.load s.i.toNat n.val with
  | some sprite =>
    obtain ⟨hr, rfl⟩ := Memory.load_eq_some.1 h
    exact .inl ⟨hr, _, rfl, rfl⟩
  | none =>
    obtain ⟨h0, h1⟩ := Memory.load_eq_none.1 h
    exact .inr ⟨h0, h1, rfl⟩

/-- The key skips: a skip or none, or KEY_INDEX_OOB. -/
theorem skipIfKey_cases (down : Bool) (x : Reg) (i : Instr) (s : State) :
    (∃ k : Fin 16, (s.getV x).toNat = k.val ∧ skipIfKey down x i s =
      .next (s.setPc (if s.key.get k = down then s.pc + 2 else s.pc))) ∨
    (16 ≤ (s.getV x).toNat ∧ skipIfKey down x i s = .next (s.raiseFrom .keyIndexOob i)) := by
  unfold skipIfKey
  cases h : keyIndex (s.getV x) with
  | some k => exact .inl ⟨k, keyIndex_eq_some.1 h, by simp [skipIf_eq]⟩
  | none => exact .inr ⟨keyIndex_eq_none.1 h, rfl⟩

/-! ## STEP -/

theorem step_of_halted {s : State} (h : s.fault.valid = true) : step s = .next s := by
  simp [step, h]

theorem step_of_fetch_none {s : State} (h : s.fault.valid = false) (hf : s.fetch = none) :
    step s = .next (s.takeFault .fetchOob 0 s.pc) := by
  simp [step, h, hf]

theorem step_of_undefined {s : State} {op : Word} (h : s.fault.valid = false)
    (hf : s.fetch = some op) (hd : decodeWord op = none) :
    step s = .next (s.takeFault .undefinedOpcode op s.pc) := by
  simp [step, h, hf, hd]

theorem step_of_decoded {s : State} {op : Word} {i : Instr} (h : s.fault.valid = false)
    (hf : s.fetch = some op) (hd : decodeWord op = some i) :
    step s = exec i (s.setPc (s.pc + 2)) := by
  simp [step, h, hf, hd]

/-- What a STEP can do: nothing on a halted machine, a fault of the fetch or of the decoder, or the
decoded instruction on the state after the fetch. -/
theorem step_cases (s : State) :
    (s.fault.valid = true ∧ step s = .next s) ∨
    (s.fault.valid = false ∧ s.fetch = none ∧ step s = .next (s.takeFault .fetchOob 0 s.pc)) ∨
    (∃ op, s.fault.valid = false ∧ s.fetch = some op ∧ decodeWord op = none ∧
      step s = .next (s.takeFault .undefinedOpcode op s.pc)) ∨
    (∃ op i, s.fault.valid = false ∧ s.fetch = some op ∧ decodeWord op = some i ∧
      step s = exec i (s.setPc (s.pc + 2))) := by
  cases h : s.fault.valid with
  | true => exact .inl ⟨rfl, step_of_halted h⟩
  | false =>
    cases hf : s.fetch with
    | none => exact .inr (.inl ⟨rfl, rfl, step_of_fetch_none h hf⟩)
    | some op =>
      cases hd : decodeWord op with
      | none => exact .inr (.inr (.inl ⟨op, rfl, rfl, hd, step_of_undefined h hf hd⟩))
      | some i => exact .inr (.inr (.inr ⟨op, i, rfl, rfl, hd, step_of_decoded h hf hd⟩))

/-- The state `withFetchWord` prepares is one whose next STEP runs the word's instruction. -/
theorem step_withFetchWord (s : State) {w : Nat} {i : Instr} (h : decodeTableWord 16 w = some i) :
    step (s.withFetchWord 16 w) =
      exec i ((s.withFetchWord 16 w).setPc ((s.withFetchWord 16 w).pc + 2)) := by
  have hpc : s.fetchablePc.toNat + 1 ≤ 4095 := by
    unfold State.fetchablePc
    split
    · decide
    · omega
  have hv : (s.withFetchWord 16 w).fault.valid = false := by
    cases hf : s.fault.valid <;> simp [State.withFetchWord, hf, FaultRecord.clear]
  have hfetch : (s.withFetchWord 16 w).fetch = some (BitVec.ofNat 16 (w % 2 ^ 16)) := by
    rw [State.fetch_of_le (by exact hpc)]
    simp [State.withFetchWord, Memory.setBytes]
  have hd : decodeWord (BitVec.ofNat 16 (w % 2 ^ 16)) = some i := by
    rw [decodeTableWord] at h
    simp only [decode_bytes] at h
    cases hw : decodeWord (BitVec.ofNat 16 (w % 2 ^ 16)) with
    | none => rw [hw] at h; simp at h
    | some j => rw [hw] at h; simpa using h
  exact step_of_decoded hv hfetch hd

end Sys2Proof.Machine
end

