-- ==== Sys2Proof/Laws/Exec.lean ====
section
/-! SUPPORT. What an instruction can answer as far as faults go: it leaves `FAULT` alone and no condition
of its own holds, or one does and that fault is taken. -/

namespace Sys2Proof.Machine

/-- The fault conditions of the instructions themselves (spec/60_exceptions.md R171), on the execute
phase's state. -/
def InstrRaises (i : Instr) (s : State) : Cause → Prop
  | .stackOverflow => ∃ nnn, i = .call nnn ∧ s.sp.val = 16
  | .stackUnderflow => i = .ret ∧ s.sp.val = 0
  | .memOob =>
    (∃ x, i = .ldB x ∧ 4095 < s.i.toNat + 2) ∨
    (∃ x, (i = .stRegs x ∨ i = .ldRegs x) ∧ 4095 < s.i.toNat + x.val) ∨
    (∃ x y n, i = .drw x y n ∧ 0 < n.val ∧ 4095 < s.i.toNat + n.val - 1)
  | .keyIndexOob => ∃ x, (i = .skp x ∨ i = .sknp x) ∧ 15 < (s.getV x).toNat
  | .none | .fetchOob | .undefinedOpcode | .loadCapacity => False

/-- An instruction has at most one fault condition (R173). -/
theorem InstrRaises.unique {i : Instr} {s : State} {c d : Cause} (hc : InstrRaises i s c)
    (hd : InstrRaises i s d) : c = d := by
  cases c <;> cases d <;> first
    | rfl
    | exact hc.elim
    | exact hd.elim
    | (simp only [InstrRaises] at hc hd; rcases hc with hc | hc | hc <;> aesop)

/-- exec leaves `FAULT` alone and no condition holds, or takes the fault whose condition holds. -/
theorem exec_ok_or_raises (i : Instr) (s t : State) (h : exec i s = .next t) :
    (t.fault = s.fault ∧ (∀ c, ¬ InstrRaises i s c)) ∨ (∃ c, InstrRaises i s c ∧ t = s.raiseFrom c i) := by
  cases i
  case ret =>
    by_cases h0 : s.sp = 0
    · simp only [exec, execRet, State.pop_of_empty h0, raise_eq] at h; cases h
      exact .inr ⟨.stackUnderflow, ⟨rfl, by simp [h0]⟩, rfl⟩
    · have : 0 < s.sp.val := by rcases Nat.eq_zero_or_pos s.sp.val with h | h; exact absurd (Fin.ext h) h0; exact h
      simp only [exec, execRet, State.pop_of_pos this] at h; cases h
      exact .inl ⟨rfl, fun c hc => by cases c <;> simp [InstrRaises] at hc; omega⟩
  case call a =>
    by_cases h0 : s.sp = 16
    · simp only [exec, execCall, State.push_of_full h0, raise_eq] at h; cases h
      exact .inr ⟨.stackOverflow, ⟨a, rfl, by simp [h0]⟩, rfl⟩
    · have hlt : s.sp.val < 16 := by have := s.sp.isLt; have : s.sp.val ≠ 16 := fun h => h0 (Fin.ext h); omega
      simp only [exec, execCall, State.push_of_lt hlt] at h; cases h
      exact .inl ⟨rfl, fun c hc => by cases c <;> simp [InstrRaises] at hc; omega⟩
  case ldB x =>
    simp only [exec, execLdB] at h
    rcases storeAtI_cases (bcdDigits (s.getV x)) (.ldB x) s with ⟨h1, h2⟩ | ⟨h1, h2, h3⟩
    · rw [h2] at h; cases h; simp at h1
      exact .inl ⟨rfl, fun c hc => by cases c <;> simp [InstrRaises] at hc; omega⟩
    · rw [h3] at h; cases h; simp at h2
      exact .inr ⟨.memOob, .inl ⟨x, rfl, by omega⟩, rfl⟩
  case stRegs x =>
    simp only [exec, execStRegs] at h
    rcases storeAtI_cases (regsUpTo s.v x) (.stRegs x) s with ⟨h1, h2⟩ | ⟨h1, h2, h3⟩
    · rw [h2] at h; cases h; simp at h1
      exact .inl ⟨rfl, fun c hc => by cases c <;> simp [InstrRaises] at hc; omega⟩
    · rw [h3] at h; cases h; simp at h2
      exact .inr ⟨.memOob, .inr (.inl ⟨x, .inl rfl, by omega⟩), rfl⟩
  case ldRegs x =>
    simp only [exec] at h
    rcases execLdRegs_cases x s with ⟨h1, h2⟩ | ⟨h1, h2⟩
    · rw [h2] at h; cases h
      exact .inl ⟨rfl, fun c hc => by cases c <;> simp [InstrRaises] at hc; omega⟩
    · rw [h2] at h; cases h
      exact .inr ⟨.memOob, .inr (.inl ⟨x, .inr rfl, by omega⟩), rfl⟩
  case drw x y n =>
    simp only [exec] at h
    rcases execDrw_cases x y n s with ⟨h1, d, hd, h2⟩ | ⟨h1, h2, h3⟩
    · rw [h2] at h; cases h
      refine .inl ⟨rfl, fun c hc => ?_⟩
      cases c <;> simp [InstrRaises] at hc
      omega
    · rw [h3] at h; cases h
      exact .inr ⟨.memOob, .inr (.inr ⟨x, y, n, rfl, by omega, by omega⟩), rfl⟩
  case skp x =>
    simp only [exec, execSkp] at h
    rcases skipIfKey_cases true x (.skp x) s with ⟨k, h1, h2⟩ | ⟨h1, h2⟩
    · rw [h2] at h; cases h
      exact .inl ⟨rfl, fun c hc => by cases c <;> simp [InstrRaises] at hc; omega⟩
    · rw [h2] at h; cases h
      exact .inr ⟨.keyIndexOob, ⟨x, .inl rfl, by omega⟩, rfl⟩
  case sknp x =>
    simp only [exec, execSknp] at h
    rcases skipIfKey_cases false x (.sknp x) s with ⟨k, h1, h2⟩ | ⟨h1, h2⟩
    · rw [h2] at h; cases h
      exact .inl ⟨rfl, fun c hc => by cases c <;> simp [InstrRaises] at hc; omega⟩
    · rw [h2] at h; cases h
      exact .inr ⟨.keyIndexOob, ⟨x, .inr rfl, by omega⟩, rfl⟩
  case ldK x =>
    simp only [exec, execLdK] at h
    split at h <;> cases h <;> exact .inl ⟨rfl, fun c hc => by cases c <;> simp [InstrRaises] at hc⟩
  all_goals
    cases h
    refine .inl ⟨?_, fun c hc => by cases c <;> simp [InstrRaises] at hc⟩
    first | rfl | (split <;> rfl)

end Sys2Proof.Machine
end

