-- ==== Sys2Proof/Tests/Slice0.lean ====
section
/-! SUPPORT. The model's own tests. Expected values come from the spec's vectors (spec/
95_test_vectors.md, named S<n> and T<n>) or, where a docstring says so, by hand from a rule. Parts: ill-formed
terms refused; words decoded; one STEP per instruction and case; host operations; a witness for every
statement with hypotheses. -/

namespace Sys2Proof.Tests

open Sys2Proof.Machine

/-! ## Helpers -/

/-- The reset state with an instruction word at 0x200, the start of the spec's vectors. -/
def boot (w : Nat) : State := State.reset.withFetchWord 16 w

/-- The next state of an answer. -/
def after (r : Result) : Option State :=
  match r with
  | .next t => some t
  | .fault _ | .refused _ => none

/-- The next state of an answer, the reset state if there is none. -/
def nextOf (r : Result) : State := (after r).getD State.reset

theorem next_nextOf {r : Result} (h : (after r).isSome = true) : r = .next (nextOf r) := by
  cases r with
  | next t => rfl
  | fault f => cases h
  | refused f => cases h

/-- One STEP. -/
def stepped (s : State) : State := nextOf (step s)

/-- `s` with bytes stored from `a` upward. -/
def withBytes (s : State) (a : Nat) (bytes : List Byte) : State := s.setMem (s.mem.setBytes a bytes)

/-- `s` at the address `a`, with the word `w` there. -/
def at' (s : State) (a : Word) (w : Nat) : State := (s.setPc a).withFetchWord 16 w

/-- The lit columns of a row. -/
def litIn (s : State) (y : Fin 32) : List Nat :=
  ((List.finRange 64).filter fun x => Framebuffer.pixel s.fb x y).map Fin.val

/-- A stack of `n` entries, all `w`. -/
def withStack (s : State) (w : Word) (sp : Fin 17) : State := s.setStack (Vector.replicate 16 w) sp

/-- Keys held. -/
def hold (s : State) (ks : List (Fin 16)) : State := s.setKeys (Vector.ofFn fun k => ks.contains k)

/-- The registers `V0..VF` hold `A0..AF`. -/
def counted (s : State) : State := s.setVs (Vector.ofFn fun k => 0xA0 + BitVec.ofNat 8 k.val)

/-- A halted machine. -/
def haltedState : State := State.reset.takeFault .undefinedOpcode 0xFFFF 0x200

/-- The STEP took this fault and changed nothing else. -/
def faultedWith (s : State) (c : Cause) (op a : Word) : Bool :=
  stepped s == s.setFault { valid := true, cause := c, opcode := op, addr := a }

/-! ## Ill-formed terms are refused (R80, R202) -/

theorem test_wf_accepts : (AsmLine.insn .drw [.reg 15, .reg 15, .num 15]).wf = true := by decide
theorem test_wf_register_digit : (AsmLine.insn .ldImm [.reg 16, .num 0]).wf = false := by decide
theorem test_wf_second_register : (AsmLine.insn .addReg [.reg 0, .reg 16]).wf = false := by decide
theorem test_wf_byte : (AsmLine.insn .ldImm [.reg 0, .num 256]).wf = false := by decide
theorem test_wf_address : (AsmLine.insn .jp [.num 4096]).wf = false := by decide
theorem test_wf_height : (AsmLine.insn .drw [.reg 0, .reg 0, .num 16]).wf = false := by decide
theorem test_wf_shift_one_operand : (AsmLine.insn .shr [.reg 0, .reg 1]).wf = false := by decide
theorem test_wf_fixed_no_operand : (AsmLine.insn .ret [.num 0]).wf = false := by decide
theorem test_wf_missing_operand : (AsmLine.insn .skp []).wf = false := by decide
theorem test_wf_db_byte : (AsmLine.db [0, 256]).wf = false := by decide
theorem test_wf_ill_formed_not_assembled : assemble (.insn .jp [.num 4096]) = none := by decide

theorem programFits_replicate (n : Nat) (b : Byte) :
    programFits (List.replicate n b) = decide (n ≤ 3584) := by
  rw [programFits, List.length_replicate]; rfl

theorem test_wf_program_fits : programFits (List.replicate 3584 0) = true :=
  programFits_replicate 3584 0
theorem test_wf_program_too_long : programFits (List.replicate 3585 0) = false :=
  programFits_replicate 3585 0

/-! ## Decoding: a word written out from the spec's encoding (R75) for every instruction -/

theorem test_decode_control :
    decodeWord 0b0000000000000000 = some .nop ∧
    decodeWord 0b0000000011101110 = some .ret ∧
    decodeWord 0b0001001000000100 = some (.jp 0x204) ∧
    decodeWord 0b0010101010111100 = some (.call 0xABC) ∧
    decodeWord 0b1011001100000001 = some (.jpV0 0x301) := by decide

theorem test_decode_skips :
    decodeWord 0b0011000110000010 = some (.seImm 1 0x82) ∧
    decodeWord 0b0100001000000111 = some (.sneImm 2 0x07) ∧
    decodeWord 0b0101000100100000 = some (.seReg 1 2) ∧
    decodeWord 0b1001001110100000 = some (.sneReg 3 10) := by decide

theorem test_decode_loads_and_logic :
    decodeWord 0b0110111110101011 = some (.ldImm 15 0xAB) ∧
    decodeWord 0b0111001100000101 = some (.addImm 3 0x05) ∧
    decodeWord 0b1000000000010000 = some (.ldReg 0 1) ∧
    decodeWord 0b1000000000010001 = some (.or 0 1) ∧
    decodeWord 0b1000001000110010 = some (.and 2 3) ∧
    decodeWord 0b1000010001010011 = some (.xor 4 5) := by decide

theorem test_decode_arithmetic :
    decodeWord 0b1000000000010100 = some (.addReg 0 1) ∧
    decodeWord 0b1000011001110101 = some (.sub 6 7) ∧
    decodeWord 0b1000001110100110 = some (.shr 3 10) ∧
    decodeWord 0b1000100010010111 = some (.subn 8 9) ∧
    decodeWord 0b1000001111111110 = some (.shl 3 15) ∧
    decodeWord 0b1100000000001111 = some (.rnd 0 0x0F) := by decide

theorem test_decode_index_and_memory :
    decodeWord 0b1010001100000000 = some (.ldI 0x300) ∧
    decodeWord 0b1111001000011110 = some (.addI 2) ∧
    decodeWord 0b1111000000101001 = some (.ldF 0) ∧
    decodeWord 0b1111000000110011 = some (.ldB 0) ∧
    decodeWord 0b1111001001010101 = some (.stRegs 2) ∧
    decodeWord 0b1111001001100101 = some (.ldRegs 2) := by decide

theorem test_decode_display_keys_timers :
    decodeWord 0b0000000011100000 = some .cls ∧
    decodeWord 0b1101000000010010 = some (.drw 0 1 2) ∧
    decodeWord 0b1110000110011110 = some (.skp 1) ∧
    decodeWord 0b1110000110100001 = some (.sknp 1) ∧
    decodeWord 0b1111001000000111 = some (.ldVxDt 2) ∧
    decodeWord 0b1111000100001010 = some (.ldK 1) ∧
    decodeWord 0b1111000100010101 = some (.ldDtVx 1) ∧
    decodeWord 0b1111000000011000 = some (.ldStVx 0) := by decide

/-- T8. -/
theorem test_decode_undefined :
    [0x00E1, 0x0123, 0x5121, 0x8008, 0x800F, 0x9121, 0xE000, 0xE09F, 0xF000, 0xF1FF, 0xFFFF].all
      (fun w => (decodeWord w).isNone) = true := by decide

/-- The high byte comes first (R70), and one byte is no instruction. -/
theorem test_decode_bytes :
    decode [0x12, 0x34, 0xFF] = .ok (.jp 0x234, [0xFF]) ∧ decode [0x12] = .error .truncated ∧
    decodeTableWord 16 0x1234 = some (.jp 0x234) := ⟨rfl, rfl, rfl⟩

/-- Program P2, lines and bytes. -/
theorem test_assemble_P2 :
    assembleAll [.insn .ldImm [.reg 0, .num 0xFE], .insn .ldI [.num 0x300],
      .insn .call [.num 0x208], .insn .jp [.num 0x206], .insn .ldB [.reg 0],
      .insn .ldRegs [.reg 2], .insn .ret [], .db [0xFF, 0xC0]] =
    some [0x60, 0xFE, 0xA3, 0x00, 0x22, 0x08, 0x12, 0x06, 0xF0, 0x33, 0xF2, 0x65, 0x00, 0xEE,
      0xFF, 0xC0] := by decide

/-! ## STEP -/

/-- T2. -/
theorem test_nop_at_the_end : stepped (State.reset.setPc 0xFFE) = State.reset.setPc 0x1000 := by
  decide
/-- T1. -/
theorem test_nop : stepped (boot 0x0000) = State.reset.setPc 0x202 := by decide
/-- T3, T4. -/
theorem test_fetch_oob :
    faultedWith (State.reset.setPc 0xFFF) .fetchOob 0 0xFFF = true ∧
    faultedWith (State.reset.setPc 0x1000) .fetchOob 0 0x1000 = true := by decide
/-- T5. -/
theorem test_odd_pc :
    let t := stepped (at' State.reset 0x201 0x612A)
    t.getV 1 = 0x2A ∧ t.pc = 0x203 := by decide
/-- T7. -/
theorem test_undefined_opcode : faultedWith (boot 0x0001) .undefinedOpcode 0x0001 0x200 = true := by
  decide
/-- T10. -/
theorem test_halted : stepped haltedState = haltedState := by decide

/-- T21: JP 0xFFF, and T20. -/
theorem test_jp : (stepped (boot 0x1FFF)).pc = 0xFFF ∧ (stepped (boot 0x1204)).pc = 0x204 := by
  decide
/-- T23. -/
theorem test_call_last_slot :
    let t := stepped (withStack (boot 0x2300) 0 15)
    t.stack.get 15 = 0x202 ∧ t.sp = 16 ∧ t.pc = 0x300 := by decide
/-- T24. -/
theorem test_call_overflow :
    faultedWith (withStack (boot 0x2300) 0 16) .stackOverflow 0x2300 0x200 = true := by decide
/-- T27. -/
theorem test_ret :
    let t := stepped (withStack (at' State.reset 0x20C 0x00EE) 0x206 1)
    t.pc = 0x206 ∧ t.sp = 0 ∧ t.stack.get 0 = 0x206 := by decide
/-- T26. -/
theorem test_ret_underflow : faultedWith (boot 0x00EE) .stackUnderflow 0x00EE 0x200 = true := by
  decide
/-- T30. -/
theorem test_jp_v0_not_reduced : (stepped ((boot 0xBFFF).setV 0 0xFF)).pc = 0x10FE := by decide
/-- T31. -/
theorem test_jp_v0_uses_v0 : (stepped ((boot 0xB200).setV 2 0x55)).pc = 0x200 := by decide

/-- T40, T41. -/
theorem test_se_imm :
    (stepped (at' State.reset 0x208 0x3000)).pc = 0x20C ∧
    (stepped ((at' State.reset 0x208 0x3000).setV 0 1)).pc = 0x20A := by decide
/-- T42, T43. -/
theorem test_sne_imm :
    (stepped ((at' State.reset 0x300 0x4207).setV 2 7)).pc = 0x302 ∧
    (stepped ((at' State.reset 0x300 0x4207).setV 2 8)).pc = 0x304 := by decide
/-- T44, T45. -/
theorem test_se_reg :
    (stepped (((boot 0x5120).setV 1 0x33).setV 2 0x33)).pc = 0x204 ∧
    (stepped (((boot 0x5120).setV 1 0x33).setV 2 0x34)).pc = 0x202 := by decide
/-- T47, T48. -/
theorem test_sne_reg :
    (stepped (((boot 0x9120).setV 1 1).setV 2 2)).pc = 0x204 ∧
    (stepped (((boot 0x9120).setV 1 2).setV 2 2)).pc = 0x202 := by decide
/-- T52. -/
theorem test_skip_past_the_end : (stepped (at' State.reset 0xFFE 0x3000)).pc = 0x1002 := by decide

/-- T61. -/
theorem test_ld_imm : (stepped (boot 0x6FAB)).getV 15 = 0xAB := by decide
/-- T62. -/
theorem test_add_imm_no_flag :
    let t := stepped (((boot 0x7305).setV 3 0xFE).setV 15 0x55)
    t.getV 3 = 0x03 ∧ t.getV 15 = 0x55 := by decide
/-- T65. -/
theorem test_ld_reg : (stepped ((boot 0x8010).setV 1 0x7E)).getV 0 = 0x7E := by decide
/-- T66. -/
theorem test_or :
    let t := stepped ((((boot 0x8011).setV 0 0xF0).setV 1 0x0F).setV 15 0x77)
    t.getV 0 = 0xFF ∧ t.getV 15 = 0x77 := by decide
/-- T67. -/
theorem test_and : (stepped (((boot 0x8012).setV 0 0xF0).setV 1 0x3C)).getV 0 = 0x30 := by decide
/-- T68. -/
theorem test_xor : (stepped (((boot 0x8013).setV 0 0xF0).setV 1 0x3C)).getV 0 = 0xCC := by decide
/-- S5, T70. -/
theorem test_add_reg :
    let t := stepped (((boot 0x8014).setV 0 0xFF).setV 1 0x01)
    t.getV 0 = 0x00 ∧ t.getV 15 = 0x01 ∧ t.pc = 0x202 := by decide
/-- T74: the flag wins. -/
theorem test_add_reg_into_vf :
    (stepped (((boot 0x8F14).setV 15 0xF0).setV 1 0x20)).getV 15 = 0x01 := by decide
/-- S6, T77. -/
theorem test_sub :
    let t := stepped (((boot 0x8015).setV 0 0x01).setV 1 0x02)
    t.getV 0 = 0xFF ∧ t.getV 15 = 0x00 := by decide
/-- T83: the old VF is the subtrahend. -/
theorem test_sub_vf :
    let t := stepped (((boot 0x80F5).setV 0 0x10).setV 15 0x01)
    t.getV 0 = 0x0F ∧ t.getV 15 = 0x01 := by decide
/-- T84. -/
theorem test_subn :
    let t := stepped (((boot 0x8017).setV 0 0x03).setV 1 0x05)
    t.getV 0 = 0x02 ∧ t.getV 15 = 0x01 := by decide
/-- T87. -/
theorem test_subn_into_vf :
    (stepped (((boot 0x8F17).setV 15 0x03).setV 1 0x09)).getV 15 = 0x01 := by decide
/-- T89. -/
theorem test_shr :
    let t := stepped (((boot 0x83A6).setV 3 0x04).setV 10 0xFF)
    t.getV 3 = 0x02 ∧ t.getV 15 = 0x00 ∧ t.getV 10 = 0xFF := by decide
/-- T92 (D2). -/
theorem test_shr_vf : (stepped ((boot 0x8F06).setV 15 0x07)).getV 15 = 0x00 := by decide
/-- T94. -/
theorem test_shl :
    let t := stepped ((boot 0x830E).setV 3 0x81)
    t.getV 3 = 0x02 ∧ t.getV 15 = 0x01 := by decide
/-- T97, T98 (D2). -/
theorem test_shl_vf :
    (stepped ((boot 0x8F0E).setV 15 0x80)).getV 15 = 0x02 ∧
    (stepped ((boot 0x8F0E).setV 15 0x7F)).getV 15 = 0x00 := by decide
/-- T100, on the draw A7. -/
theorem test_rnd_masks : (rndWith 0xA7 0 0x0F State.reset).getV 0 = 0x07 := by decide
/-- T102: whatever the draw, a mask of 0 gives 0. -/
theorem test_rnd_mask_zero : (stepped ((boot 0xC200).setV 2 9)).getV 2 = 0x00 ∧
    (stepped (boot 0xC200)).draws = 1 := by
  refine ⟨?_, rfl⟩
  change Config.randByte 0 &&& 0 = 0
  exact BitVec.and_zero

/-- T110. -/
theorem test_ld_i : (stepped (boot 0xA300)).i = 0x300 := by decide
/-- T113, T114. -/
theorem test_add_i :
    (stepped (((boot 0xF01E).setI 0xFFF).setV 0 1)).i = 0x1000 ∧
    (stepped (((boot 0xF01E).setI 0xFFFF).setV 0 2)).i = 0x0001 := by decide
/-- T117, T119. -/
theorem test_ld_f :
    (stepped ((boot 0xF029).setV 0 0x0F)).i = 0x004B ∧
    (stepped ((boot 0xF029).setV 0 0xFF)).i = 0x04FB := by decide
/-- T121. -/
theorem test_ld_b :
    (stepped (((boot 0xF033).setI 0xFFD).setV 0 0x7B)).mem.getBytes 0xFFD 3 =
      [0x01, 0x02, 0x03] := by decide
/-- T122. -/
theorem test_ld_b_oob :
    faultedWith (((boot 0xF033).setI 0xFFE).setV 0 0x7B) .memOob 0xF033 0x200 = true := by decide
/-- T125. -/
theorem test_st_regs :
    let t := stepped ((counted (boot 0xFF55)).setI 0xFF0)
    t.mem.getBytes 0xFEF 17 = [0x00, 0xA0, 0xA1, 0xA2, 0xA3, 0xA4, 0xA5, 0xA6, 0xA7, 0xA8, 0xA9,
      0xAA, 0xAB, 0xAC, 0xAD, 0xAE, 0xAF] ∧ t.i = 0xFF0 := by decide
/-- T126. -/
theorem test_st_regs_oob :
    faultedWith ((counted (boot 0xFF55)).setI 0xFF1) .memOob 0xFF55 0x200 = true := by decide
/-- T129. -/
theorem test_ld_regs :
    let t := stepped (withBytes (((boot 0xF265).setI 0x300).setV 3 0x77) 0x300
      [0x02, 0x05, 0x04, 0x09])
    t.v.toList.take 4 = [0x02, 0x05, 0x04, 0x77] ∧ t.i = 0x300 := by decide
/-- T131. -/
theorem test_ld_regs_oob :
    faultedWith ((((boot 0xF165).setI 0xFFF).setV 0 1).setV 1 2) .memOob 0xF165 0x200 = true := by
  decide

/-- CLS after a drawing (S3, T150). -/
theorem test_cls :
    let s := (boot 0x00E0).setFb (Framebuffer.toggle Framebuffer.blank 3 4)
    litIn s 4 = [3] ∧ litIn (stepped s) 4 = [] ∧ (stepped s).pc = 0x202 := by decide

/-- The state of S7 and T140: the sprite FF at 0x300, the origin (60, 0). -/
def drawing : State := withBytes (((boot 0xD011).setI 0x300).setV 0 60) 0x300 [0xFF]

/-- S7, T140, T141. -/
theorem test_drw_wraps :
    litIn (stepped drawing) 0 = [0, 1, 2, 3, 60, 61, 62, 63] ∧ (stepped drawing).getV 15 = 0 ∧
    litIn (stepped ((stepped drawing).setPc 0x200)) 0 = [] ∧
    (stepped ((stepped drawing).setPc 0x200)).getV 15 = 1 := by decide
/-- T149 (D7): the origin is read before VF is written. -/
theorem test_drw_origin_vf :
    let t := stepped (withBytes ((((boot 0xDF11).setI 0x300).setV 15 5).setV 1 2) 0x300 [0x80])
    litIn t 2 = [5] ∧ t.getV 15 = 0 := by decide

/-- T160, T161. -/
theorem test_skp :
    (stepped (hold ((boot 0xE19E).setV 1 7) [7])).pc = 0x204 ∧
    (stepped ((boot 0xE19E).setV 1 7)).pc = 0x202 := by decide
/-- T162 (D3). -/
theorem test_skp_oob :
    faultedWith (hold ((boot 0xE19E).setV 1 16) [7]) .keyIndexOob 0xE19E 0x200 = true := by decide
/-- T163, T164. -/
theorem test_sknp :
    (stepped (hold ((boot 0xE1A1).setV 1 7) [7])).pc = 0x202 ∧
    (stepped ((boot 0xE1A1).setV 1 7)).pc = 0x204 := by decide
/-- T166. -/
theorem test_ld_k_waits : stepped ((boot 0xF10A).setV 1 0xEE) = (boot 0xF10A).setV 1 0xEE := by
  decide
/-- T167. -/
theorem test_ld_k_highest :
    let t := stepped (hold ((boot 0xF10A).setV 1 0xEE) [3, 7])
    t.getV 1 = 0x07 ∧ t.pc = 0x202 := by decide
/-- T170. -/
theorem test_ld_vx_dt : (stepped ((boot 0xF207).setDt 0x2A)).getV 2 = 0x2A := by decide
/-- T171. -/
theorem test_ld_dt_vx : (stepped ((boot 0xF115).setV 1 7)).dt = 7 := by decide
/-- T172. -/
theorem test_ld_st_vx : (stepped ((boot 0xF018).setV 0 5)).st = 5 := by decide

/-! ## Host operations -/

/-- T180, T181, T183. -/
theorem test_timer_tick :
    timerTick State.reset = (State.reset, false) ∧
    timerTick ((State.reset.setDt 1).setSt 1) = (State.reset, true) ∧
    timerTick (State.reset.setDt 0xFF) = (State.reset.setDt 0xFE, false) := by decide
/-- T186, T187. -/
theorem test_set_key :
    (setKey 5 true State.reset).key.get 5 = true ∧ (setKey 5 true State.reset).key.get 4 = false ∧
    setKey 5 false (setKey 5 true State.reset) = State.reset := by decide
/-- The first two bytes of P1 at 0x200 and 0x201, and T190. -/
theorem test_load_program :
    (loadProgram [0x60, 0x05] State.reset).mem.getBytes 0x1FF 4 = [0x00, 0x60, 0x05, 0x00] ∧
    loadProgram [] State.reset = State.reset := by decide
/-- T189. -/
theorem test_load_too_long :
    loadProgram (List.replicate 3585 0) State.reset =
      State.reset.takeFault .loadCapacity 0 0x200 := by
  rw [loadProgram, if_neg (by decide), test_wf_program_too_long]; rfl
/-- T191. -/
theorem test_reset : haltedState.resetOp = State.reset := by decide
/-- T192. -/
theorem test_halted_host_operations :
    timerTick (haltedState.setSt 1) = (haltedState.setSt 1, false) ∧
    setKey 5 true haltedState = haltedState ∧ loadProgram [1] haltedState = haltedState := by decide
/-- T130: the font under the default FONT (D8). -/
theorem test_font :
    (stepped (boot 0xFF65)).v.toList = [0xF0, 0x90, 0x90, 0x90, 0xF0, 0x20, 0x60, 0x20, 0x20, 0x70,
      0xF0, 0x10, 0xF0, 0x80, 0xF0, 0xF0] := by decide
/-- T193: a silenced timer. -/
theorem test_sound_active :
    soundActive (boot 0xF018 |>.setSt 2) = true ∧
    soundActive (stepped (boot 0xF018 |>.setSt 2)) = false := by decide
/-- Writing back what memory held at reset leaves the canonical form as it was. -/
theorem test_memory_canonical :
    ((State.reset.mem.set 0x300 5).set 0x10 7).wf = true ∧
    ((State.reset.mem.set 0x300 5).set 0x300 0) = State.reset.mem := by decide

/-! ## Witnesses: for each statement with hypotheses, states and operands that meet them together, clause
by clause at boundary values -/

/-- A predicate of a state that decides "not halted". -/
def running (s : State) : Bool := !s.fault.valid

theorem not_halted {s : State} (h : running s = true) : ¬ s.Halted := by
  simpa [running, State.Halted] using h

theorem halted_haltedState : haltedState.Halted := rfl

theorem test_witness_EncodeOfDecode : decodeWord 0x8FF6 = some (.shr 15 15) := by decide

theorem test_witness_DispatchFollowsTheOpcodeTable :
    (0xFF65 : Word) &&& Mnemonic.ldRegs.mask = Mnemonic.ldRegs.pattern := by decide

theorem test_witness_AssembledLineIsTheEncoding :
    (∀ x k, Instr.drw 15 15 15 ≠ .shr x k) ∧ ∀ x k, Instr.drw 15 15 15 ≠ .shl x k :=
  ⟨(fun _ _ h => by cases h), (fun _ _ h => by cases h)⟩

theorem test_witness_ResetStateValues : (15 < 16 ∧ 4 < 5) ∧ 0x050 ≤ 0x050 := by decide

/-- The lowest and the highest address an instruction is fetched from. -/
theorem test_witness_StepRunsTheDecodedInstruction :
    ∃ (s t : State) (i j : Instr),
      (¬ s.Halted ∧ s.pc.toNat + 1 ≤ 4095 ∧
        decode [s.mem.get s.pc.toNat, s.mem.get (s.pc.toNat + 1)] = .ok (i, [])) ∧
      (¬ t.Halted ∧ t.pc.toNat + 1 = 4095 ∧
        decode [t.mem.get t.pc.toNat, t.mem.get (t.pc.toNat + 1)] = .ok (j, [])) :=
  ⟨at' State.reset 0 0x8014, at' State.reset 0xFFE 0xD123, .addReg 0 1, .drw 1 2 3,
    ⟨not_halted rfl, by decide, rfl⟩, ⟨not_halted rfl, by decide, rfl⟩⟩

theorem test_witness_FetchBeyondMemoryFaults :
    ∃ s t : State, (¬ s.Halted ∧ 4095 < s.pc.toNat + 1) ∧ ¬ t.Halted ∧ 4095 < t.pc.toNat + 1 :=
  ⟨State.reset.setPc 4095, State.reset.setPc 0xFFFF,
    ⟨not_halted rfl, by decide⟩, not_halted rfl, by decide⟩

theorem test_witness_UndefinedOpcodeFaults :
    ∃ (s : State) (op : Word), ¬ s.Halted ∧ s.pc.toNat + 1 ≤ 4095 ∧
      op.toNat = (s.mem.get s.pc.toNat).toNat * 256 + (s.mem.get (s.pc.toNat + 1)).toNat ∧
      decodeWord op = none :=
  ⟨at' State.reset 0xFFE 0xFFFF, 0xFFFF, not_halted rfl, by decide, by decide, by decide⟩

theorem test_witness_HaltIsFinalUntilReset :
    haltedState.Halted ∧
      HostOp.reset ∉ [.step, .timerTick, .setKey 5 true, .loadProgram [1]] :=
  ⟨rfl, by decide⟩

/-- A fault of each cause a STEP can raise, met at the edge of its condition. -/
theorem test_witness_FaultingSteps :
    [(State.reset.setPc 4095, Cause.fetchOob), (boot 0x0001, .undefinedOpcode),
     (withStack (boot 0x2300) 0 16, .stackOverflow), (boot 0x00EE, .stackUnderflow),
     ((boot 0xF033).setI 4094, .memOob), ((boot 0xF155).setI 4095, .memOob),
     ((boot 0xF065).setI 4096, .memOob), ((boot 0xD001).setI 4096, .memOob),
     ((boot 0xE09E).setV 0 16, .keyIndexOob), ((boot 0xE0A1).setV 0 16, .keyIndexOob)].all
      (fun p => running p.1 && !running (stepped p.1) && (stepped p.1).fault.cause == p.2 &&
        p.2 != .none) = true := by decide

theorem test_witness_FaultingStepChangesOnlyTheRecord :
    ∃ s t : State, ¬ s.Halted ∧ step s = .next t ∧ t.Halted :=
  ⟨boot 0x0001, _, not_halted rfl, rfl, rfl⟩

theorem test_witness_FaultsExactlyUnderTheirConditions :
    ∃ (s t : State) (c : Cause), ¬ s.Halted ∧ step s = .next t ∧ c ≠ .none ∧ StepRaises s c :=
  ⟨(boot 0xF155).setI 4095, stepped ((boot 0xF155).setI 4095), .memOob, not_halted rfl,
    next_nextOf (by decide), by decide, .inr (.inl ⟨1, .inl (by decide), by decide⟩)⟩

/-- A completed STEP of each kind of movement: on, popped, jumped, called, offset, skips taken and not,
the key wait met and not. -/
theorem test_witness_CompletedStepMovesPc :
    [(at' State.reset 0xFFE 0x6005, Instr.ldImm 0 5), (withStack (boot 0x00EE) 0x1000 16, .ret),
     (boot 0x1FFF, .jp 0xFFF), (withStack (boot 0x2FFF) 0 15, .call 0xFFF),
     ((boot 0xBFFF).setV 0 0xFF, .jpV0 0xFFF), (boot 0x3000, .seImm 0 0),
     (boot 0x3001, .seImm 0 1), (hold ((boot 0xEF9E).setV 15 15) [15], .skp 15),
     (boot 0xE09E, .skp 0), (boot 0xF00A, .ldK 0), (hold (boot 0xF00A) [15], .ldK 0)].all
      (fun p => running p.1 && p.1.nextInstr == some p.2 && (after (step p.1)).isSome &&
        running (stepped p.1) && (stepped p.1).pc.toNat == pcAfter p.2 p.1) = true := by decide

/-- Each kind of state changes under an instruction named for it. -/
theorem test_witness_OnlyNamedInstructionsWrite :
    (nextOf (exec (.ldB 0) ((boot 0).setV 0 9))).mem ≠ (boot 0).mem ∧
    (nextOf (exec (.ldI 1) (boot 0))).i ≠ (boot 0).i ∧
    (nextOf (exec (.call 1) (boot 0))).stack ≠ (boot 0).stack ∧
    (nextOf (exec (.call 1) (boot 0))).sp ≠ (boot 0).sp ∧
    (nextOf (exec (.ldDtVx 0) ((boot 0).setV 0 9))).dt ≠ (boot 0).dt ∧
    (nextOf (exec (.ldStVx 0) ((boot 0).setV 0 9))).st ≠ (boot 0).st ∧
    (nextOf (exec (.drw 0 0 1) (boot 0))).fb ≠ (boot 0).fb ∧
    (nextOf (exec .ret (boot 0))).fault ≠ (boot 0).fault ∧
    (nextOf (exec (.rnd 0 9) (boot 0))).draws ≠ (boot 0).draws := by
  refine ⟨by decide, by decide, by decide, by decide, by decide, by decide, by decide,
    by decide, ?_⟩
  exact Nat.succ_ne_zero 0

/-- `pc` moves in the execute phase under a control transfer, a taken skip, a key wait and a fault; a
register changes at a destination, at VF under a flag writer, and at `x` itself under LD_REGS. -/
theorem test_witness_OnlyNamedInstructionsWrite_pc_and_registers :
    [Instr.jp 1, .seImm 0 0, .sknp 0, .ldK 0, .ret].all
      (fun i => (nextOf (exec i (boot 0))).pc != (boot 0).pc) = true ∧
    [(Instr.ldImm 14 9, (14 : Reg)), (.addReg 14 13, regF), (.subn 14 13, 14), (.drw 0 0 1, regF),
      (.ldRegs 15, regF)].all
      (fun p => (nextOf (exec p.1 ((counted (boot 0)).setI 0x200))).getV p.2 !=
        ((counted (boot 0)).setI 0x200).getV p.2) = true ∧
    ∃ t, exec .ret (boot 0) = .next t ∧ TakesFault .stackUnderflow .ret (boot 0) t :=
  ⟨by decide, by decide, _, rfl, rfl⟩

theorem test_witness_OnlyFlagWritersAndDestinationsChangeVF :
    ∃ (i : Instr) (s t : State), exec i s = .next t ∧ t.getV regF ≠ s.getV regF :=
  ⟨.ldRegs 15, boot 0, nextOf (exec (.ldRegs 15) (boot 0)), next_nextOf (by decide), by decide⟩

theorem test_witness_NopOnlyAdvances :
    (∃ s : State, ¬ s.Halted ∧ s.fetch = some 0 ∧ s.pc.toNat = 4094) ∧
    [0x0001, 0x00DF, 0x00E1, 0x00ED, 0x00EF, 0x0FFF].all (fun op : Word =>
      op.toNat < 0x1000 && !([0x0000, 0x00E0, 0x00EE].contains op.toNat)) = true :=
  ⟨⟨State.reset.setPc 4094, not_halted rfl, by decide, by decide⟩, by decide⟩

theorem test_witness_JumpSetsPc :
    (∃ (s : State) (nnn : Addr12), ¬ s.Halted ∧ s.nextInstr = some (.jp nnn) ∧
      s.pc.toNat = nnn.toNat) ∧
    ∃ s t : State, ¬ s.Halted ∧ exec (.jp 0xFFF) s = .next t :=
  ⟨⟨at' State.reset 0xFFE 0x1FFE, 0xFFE, not_halted rfl, by decide, by decide⟩,
    ⟨boot 0, _, not_halted rfl, rfl⟩⟩

theorem test_witness_JumpOffsetAddsV0 :
    ∃ (s : State) (nnn : Addr12), ¬ s.Halted ∧ nnn.toNat + (s.getV 0).toNat = 4095 :=
  ⟨(boot 0).setV 0 1, 0xFFE, not_halted rfl, by decide⟩

theorem test_witness_CallPushesAndJumps :
    (withStack (boot 0) 0 15).sp.val < 16 ∧ (withStack (boot 0) 0 16).sp.val = 16 := by decide

theorem test_witness_ReturnPops :
    0 < (withStack (boot 0) 0 1).sp.val ∧ 0 < (withStack (boot 0) 0 16).sp.val ∧
    (boot 0).sp.val = 0 := by decide

theorem test_witness_CallThenReturnComesBack :
    ∃ (s t u : State) (nnn : Addr12), s.sp.val = 15 ∧ exec (.call nnn) s = .next t ∧
      u.stack = t.stack ∧ u.sp = t.sp :=
  ⟨withStack (boot 0) 0 15, nextOf (exec (.call 0xFFF) (withStack (boot 0) 0 15)),
    nextOf (exec (.call 0xFFF) (withStack (boot 0) 0 15)), 0xFFF, by decide,
    next_nextOf (by decide), rfl, rfl⟩

/-- The state after the fetch of an instruction at 0x200, with equal and with unequal operands. -/
theorem test_witness_SkipsCompareWholeRegisters :
    ((boot 0).setPc 0x202).pc = (0x200 : Word) + 2 ∧
    (((boot 0).setPc 0x202).setV 1 0xFF).getV 1 = 0xFF ∧
    (((boot 0).setPc 0x202).setV 1 0xFF).getV 1 ≠ (((boot 0).setPc 0x202).setV 1 0xFF).getV 2 ∧
    [0x5001, 0x5FFF, 0x9001, 0x9FFF].all (fun op : Word =>
      (op.toNat / 4096 == 0x5 || op.toNat / 4096 == 0x9) && op.toNat % 16 != 0) = true := by
  decide

/-- `x` other than F and `x = F`, the latter with VF below 0x80 and from it on. -/
theorem test_witness_flag_register :
    (14 : Reg) ≠ regF ∧ (15 : Reg) = regF ∧ 0x80 ≤ (((boot 0).setV regF 0x80).getV regF).toNat ∧
    ¬ 0x80 ≤ (((boot 0).setV regF 0x7F).getV regF).toNat := by decide

theorem test_witness_OnlyRandomReadsTheDraws :
    ∃ (i : Instr) (s t : State), (∀ x kk, i ≠ .rnd x kk) ∧ exec i s = .next t :=
  ⟨.ldVxDt 0, boot 0, _, (fun _ _ h => by cases h), rfl⟩

theorem test_witness_DecimalStoreWritesThreeDigits :
    ((boot 0).setI 4093).i.toNat + 2 ≤ 4095 ∧ 4095 < ((boot 0).setI 4094).i.toNat + 2 := by decide

/-- ST_REGS and LD_REGS at the ends of their ranges, for x = 0 and x = 15. -/
theorem test_witness_RegisterStoreAndLoad :
    ((boot 0).setI 4080).i.toNat + (15 : Reg).val ≤ 4095 ∧
    4095 < ((boot 0).setI 4081).i.toNat + (15 : Reg).val ∧
    ((boot 0).setI 4095).i.toNat + (0 : Reg).val ≤ 4095 ∧
    4095 < ((boot 0).setI 4096).i.toNat + (0 : Reg).val := by decide

/-- The state after ST_REGS with x = 15 at 4080. -/
def stored : State := nextOf (exec (.stRegs 15) ((counted (boot 0)).setI 4080))

theorem test_witness_StoredRegistersLoadBack :
    ∃ (s t u : State) (x : Reg), s.i.toNat + x.val ≤ 4095 ∧ exec (.stRegs x) s = .next t ∧
      u.mem = t.mem ∧ u.i = t.i :=
  ⟨(counted (boot 0)).setI 4080, stored, stored.setVs (boot 0).v, 15, by decide,
    next_nextOf (by decide), rfl, rfl⟩

/-- The first and the last pair of ST_REGS with x = 15, and the last byte that LD_B can reach. -/
theorem test_witness_StoredBytesAreFetchedAsAnInstruction :
    (∃ (s t u w : State) (x : Reg), s.i.toNat + x.val = 4095 ∧ exec (.stRegs x) s = .next t ∧
      (u.mem = t.mem ∧ u.pc.toNat = s.i.toNat + (0 : Reg).val ∧ (1 : Reg) ≤ x) ∧
      w.mem = t.mem ∧ w.pc.toNat = s.i.toNat + (14 : Reg).val ∧ (15 : Reg) ≤ x) ∧
    ∃ (s t u w : State) (x : Reg), s.i.toNat + 2 = 4095 ∧ exec (.ldB x) s = .next t ∧
      (u.mem = t.mem ∧ u.pc.toNat = s.i.toNat) ∧ w.mem = t.mem ∧ w.pc.toNat = s.i.toNat + 1 :=
  ⟨⟨(counted (boot 0)).setI 4080, stored, stored.setPc 4080, stored.setPc 4094, 15, by decide,
      next_nextOf (by decide), ⟨rfl, by decide, by decide⟩, rfl, by decide, by decide⟩,
    ⟨(boot 0).setI 4093, nextOf (exec (.ldB 0) ((boot 0).setI 4093)),
      (nextOf (exec (.ldB 0) ((boot 0).setI 4093))).setPc 4093,
      (nextOf (exec (.ldB 0) ((boot 0).setI 4093))).setPc 4094, 0, by decide,
      next_nextOf (by decide), ⟨rfl, by decide⟩, rfl, by decide⟩⟩

/-- DRW with no row at any `I`, with rows up to the last byte, and one byte beyond. -/
theorem test_witness_DrawXorsCoveredPixels :
    (0 : Fin 16).val = 0 ∧ ((boot 0).setI 4081).i.toNat + (15 : Fin 16).val - 1 ≤ 4095 ∧
    (0 < (15 : Fin 16).val ∧ 4095 < ((boot 0).setI 4082).i.toNat + (15 : Fin 16).val - 1) ∧
    (0 < (1 : Fin 16).val ∧ 4095 < ((boot 0).setI 4096).i.toNat + (1 : Fin 16).val - 1) := by
  decide

/-- T144: the sprite 80 80 80 at the origin (255, 255) covers (63, 0), its second row wrapped, and not
(62, 0). -/
theorem test_witness_Covers :
    Covers 255 255 [0x80, 0x80, 0x80] 63 0 ∧ ¬ Covers 255 255 [0x80, 0x80, 0x80] 62 0 := by
  refine ⟨⟨1, 0, by decide, by decide, by decide, by decide, by decide⟩, ?_⟩
  rintro ⟨r, c, hr, hc, hb, hx, -⟩
  interval_cases c <;> omega

theorem test_witness_DrawingTwiceRestores :
    ∃ (s t u : State) (x y : Reg) (n : Fin 16),
      (n.val = 0 ∨ s.i.toNat + n.val - 1 ≤ 4095) ∧ exec (.drw x y n) s = .next t ∧
      t.getV x = s.getV x ∧ t.getV y = s.getV y ∧ exec (.drw x y n) t = .next u ∧
      (∀ px py, Framebuffer.pixel s.fb px py = false) ∧
      ∃ r : Nat, r < n.val ∧ s.mem.get (s.i.toNat + r) ≠ 0 :=
  ⟨drawing, nextOf (exec (.drw 0 1 1) drawing),
    nextOf (exec (.drw 0 1 1) (nextOf (exec (.drw 0 1 1) drawing))), 0, 1, 1, by decide,
    next_nextOf (by decide), by decide, by decide,
    next_nextOf (by decide),
    fun px py => by simp [drawing, withBytes, boot, State.withFetchWord, State.reset,
      Framebuffer.pixel, Vector.get_eq_getElem],
    0, by decide, by decide⟩

/-- A key number at the end of its range, held and not, and one beyond. -/
theorem test_witness_KeySkipsTestOneKey :
    (((boot 0).setPc 0x202).setV 1 15).pc = (0x200 : Word) + 2 ∧
    (((boot 0).setPc 0x202).setV 1 15).getV 1 = 15 ∧ (hold (boot 0) [15]).key.get 15 = true ∧
    (boot 0).key.get 15 = false ∧ 15 < (((boot 0).setV 1 16).getV 1).toNat := by decide

theorem test_witness_KeyWaitTakesTheHighestHeldKey :
    ((hold (boot 0) [0, 15]).key.get 15 = true ∧
      ∀ j : Fin 16, 15 < j → (hold (boot 0) [0, 15]).key.get j = false) ∧
    ((hold (boot 0) [0]).key.get 0 = true ∧
      ∀ j : Fin 16, 0 < j → (hold (boot 0) [0]).key.get j = false) ∧
    (¬ (boot 0xF10A).Halted ∧ (boot 0xF10A).nextInstr = some (.ldK 1) ∧
      ∀ j : Fin 16, (boot 0xF10A).key.get j = false) :=
  ⟨by decide, by decide, not_halted rfl, by decide, by decide⟩

theorem test_witness_SoundTimerIsInvisibleToPrograms :
    ∃ (i : Instr) (s t : State), exec i s = .next t ∧ t.st ≠ s.st :=
  ⟨.ldStVx 0, (boot 0).setV 0 9, _, rfl, by decide⟩

theorem test_witness_PixelsAreReadOnlyThroughCollision :
    (∃ (i : Instr) (s t : State), (∀ x y n, i ≠ .drw x y n) ∧ exec i s = .next t) ∧
    ∃ (x y : Reg) (n : Fin 16) (s t : State), exec (.drw x y n) s = .next t :=
  ⟨⟨.cls, boot 0, _, (fun _ _ _ h => by cases h), rfl⟩,
    ⟨0, 1, 1, drawing, nextOf (exec (.drw 0 1 1) drawing), next_nextOf (by decide)⟩⟩

/-- Running and halted states for the host operations, and programs of 3584 and 3585 bytes. -/
theorem test_witness_host_operations :
    ¬ State.reset.Halted ∧ haltedState.Halted ∧ (List.replicate 3584 (0 : Byte)).length ≤ 3584 ∧
    3584 < (List.replicate 3585 (0 : Byte)).length ∧ (15 : Fin 16) ≠ 0 :=
  ⟨not_halted rfl, rfl, by rw [List.length_replicate], by rw [List.length_replicate]; omega,
    by decide⟩

theorem test_witness_ZeroedMemoryRunsToItsEnd :
    ¬ State.reset.Halted ∧
    (∀ a : Nat, State.reset.pc.toNat ≤ a → a < 4096 → State.reset.mem.get a = 0) ∧
    State.reset.pc.toNat + 2 * 1792 = 4096 := by
  refine ⟨not_halted rfl, fun a ha _ => ?_, by decide⟩
  have h1 : 512 ≤ a := ha
  have h2 : Config.font.length = 80 := by decide
  show Config.font.getD a 0 = 0
  rw [List.getD_eq_default _ _ (by omega)]

/-- A state of the invariant other than the reset state, and a STEP from it. -/
theorem test_witness_Inv :
    ∃ s t : State, s.Inv ∧ s.sp.val = 16 ∧ s.mem ≠ [] ∧ step s = .next t :=
  ⟨withStack (boot 0x00EE) 0x1000 16, stepped (withStack (boot 0x00EE) 0x1000 16),
    ⟨by decide, by decide, fun k _ => by revert k; decide, fun _ => rfl, fun h => by cases h⟩,
    by decide, by decide, next_nextOf (by decide)⟩

end Sys2Proof.Tests
end

section
/-! PROOFS. Every operation answers a next state (spec/00_scope.md R14, spec/60_exceptions.md R170, R177):
the instructions, STEP, one host operation, and by induction any list of host operations. -/

namespace Sys2Proof.Machine

/-! ## The meanings that can raise, or that look for a key -/

theorem exists_execRet_eq_next (s : State) : ∃ t, execRet s = .next t := by
  unfold execRet
  cases s.pop with
  | some p => exact ⟨p.2.setPc p.1, rfl⟩
  | none => exact ⟨_, raise_eq ..⟩

theorem exists_execCall_eq_next (nnn : Addr12) (s : State) : ∃ t, execCall nnn s = .next t := by
  unfold execCall
  cases s.push s.pc with
  | some t => exact ⟨t.setPc (zextAddr nnn), rfl⟩
  | none => exact ⟨_, raise_eq ..⟩

theorem exists_execLdK_eq_next (x : Reg) (s : State) : ∃ t, execLdK x s = .next t := by
  unfold execLdK
  cases heldKey s.key with
  | some k => exact ⟨s.setV x (keyByte k), rfl⟩
  | none => exact ⟨s.rewind, rfl⟩

theorem exists_storeAtI_eq_next (bytes : List Byte) (i : Instr) (s : State) :
    ∃ t, storeAtI bytes i s = .next t := by
  obtain ⟨-, h⟩ | ⟨-, -, h⟩ := storeAtI_cases bytes i s
  · exact ⟨_, h⟩
  · exact ⟨_, h⟩

theorem exists_execLdRegs_eq_next (x : Reg) (s : State) : ∃ t, execLdRegs x s = .next t := by
  obtain ⟨-, h⟩ | ⟨-, h⟩ := execLdRegs_cases x s
  · exact ⟨_, h⟩
  · exact ⟨_, h⟩

theorem exists_execDrw_eq_next (x y : Reg) (n : Fin 16) (s : State) :
    ∃ t, execDrw x y n s = .next t := by
  obtain ⟨-, d, -, h⟩ | ⟨-, -, h⟩ := execDrw_cases x y n s
  · exact ⟨_, h⟩
  · exact ⟨_, h⟩

theorem exists_skipIfKey_eq_next (down : Bool) (x : Reg) (i : Instr) (s : State) :
    ∃ t, skipIfKey down x i s = .next t := by
  obtain ⟨k, -, h⟩ | ⟨-, h⟩ := skipIfKey_cases down x i s
  · exact ⟨_, h⟩
  · exact ⟨_, h⟩

/-! ## Instructions, STEP and host operations -/

/-- The arms that can raise answer by the lemmas above; every other arm is a next state as it stands. -/
theorem exists_exec_eq_next (i : Instr) (s : State) : ∃ t, exec i s = .next t := by
  cases i with
  | ret => exact exists_execRet_eq_next s
  | call nnn => exact exists_execCall_eq_next nnn s
  | ldK x => exact exists_execLdK_eq_next x s
  | ldB x => exact exists_storeAtI_eq_next _ (.ldB x) s
  | stRegs x => exact exists_storeAtI_eq_next _ (.stRegs x) s
  | ldRegs x => exact exists_execLdRegs_eq_next x s
  | drw x y n => exact exists_execDrw_eq_next x y n s
  | skp x => exact exists_skipIfKey_eq_next true x (.skp x) s
  | sknp x => exact exists_skipIfKey_eq_next false x (.sknp x) s
  | _ => exact ⟨_, rfl⟩

theorem exists_step_eq_next (s : State) : ∃ t, step s = .next t := by
  obtain ⟨-, h⟩ | ⟨-, -, h⟩ | ⟨op, -, -, -, h⟩ | ⟨op, i, -, -, -, h⟩ := step_cases s
  · exact ⟨_, h⟩
  · exact ⟨_, h⟩
  · exact ⟨_, h⟩
  · rw [h]; exact exists_exec_eq_next i _

theorem exists_runOp_eq_next (op : HostOp) (s : State) : ∃ t, runOp op s = .next t := by
  cases op with
  | step => exact exists_step_eq_next s
  | _ => exact ⟨_, rfl⟩

/-- A run goes on from the state its first operation answers. -/
theorem runSchedule_cons_of_next {op : HostOp} {s t : State} (h : runOp op s = .next t)
    (ops : List HostOp) : runSchedule (op :: ops) s = runSchedule ops t := by
  rw [runSchedule, h]

theorem exists_runSchedule_eq_next (ops : List HostOp) (s : State) :
    ∃ t, runSchedule ops s = .next t := by
  induction ops generalizing s with
  | nil => exact ⟨s, rfl⟩
  | cons op ops ih =>
    obtain ⟨t, h⟩ := exists_runOp_eq_next op s
    rw [runSchedule_cons_of_next h]
    exact ih t

/-- Settles O9: instruction by instruction, then STEP, then induction on the list of operations. -/
theorem everyOperationCompletes : Obligations.EveryOperationCompletes :=
  ⟨exists_exec_eq_next, exists_step_eq_next, exists_runSchedule_eq_next⟩

end Sys2Proof.Machine
end

section
/-! PROOFS. What the execute phase of an instruction can do to the state, said once: one constructor per
kind of write in the table of spec/10_state.md R41. The statements about which instruction writes what,
and the machine's invariant, are read off it. -/

namespace Sys2Proof.Machine

/-- `pc` after the fetch of an instruction at an address of memory (R91). -/
def State.Fetched (s : State) : Prop := 2 ≤ s.pc.toNat ∧ s.pc.toNat ≤ 4096

/-- `Effect s i t`: executing `i` from `s` may lead to `t`. The elements written are named; of the values
written it says what the invariant needs. -/
inductive Effect (s : State) : Instr → State → Prop
  /-- A fault whose condition holds is taken (R93). -/
  | fault {i : Instr} {c : Cause} (hc : InstrRaises i s c) : Effect s i (s.raiseFrom c i)
  /-- Only `pc` is written; after a fetch it stays in the range of R24. -/
  | pc {i : Instr} {p : Word} (hi : MovesPc i) (hp : s.Fetched → p.toNat ≤ 0x10FE) :
      Effect s i (s.setPc p)
  /-- Only registers the instruction may write are written. -/
  | regs {i : Instr} {v : Vector Byte 16} (hv : ∀ k : Reg, v.get k ≠ s.getV k → MayWriteV i k) :
      Effect s i (s.setVs v)
  | random (x : Reg) (kk b : Byte) : Effect s (.rnd x kk) (s.countDraw.setV x b)
  | index {i : Instr} {w : Word}
      (hi : (∃ a, i = .ldI a) ∨ (∃ x, i = .addI x) ∨ ∃ x, i = .ldF x) : Effect s i (s.setI w)
  | store {i : Instr} {m : Memory} (hi : (∃ x, i = .ldB x) ∨ ∃ x, i = .stRegs x)
      (hm : s.mem.wf = true → m.wf = true) : Effect s i (s.setMem m)
  | call (nnn : Addr12) (h : s.sp.val < 16) :
      Effect s (.call nnn) ((s.setStack (s.stack.set s.sp.val s.pc h) ⟨s.sp.val + 1, by omega⟩).setPc
        (zextAddr nnn))
  | ret (h : 0 < s.sp.val) :
      Effect s .ret ((s.setStack s.stack ⟨s.sp.val - 1, by omega⟩).setPc
        (s.stack[s.sp.val - 1]'(by omega)))
  | delay (x : Reg) (b : Byte) : Effect s (.ldDtVx x) (s.setDt b)
  | sound (x : Reg) (b : Byte) : Effect s (.ldStVx x) (s.setSt b)
  | clear (fb : Framebuffer) : Effect s .cls (s.setFb fb)
  | draw (x y : Reg) (n : Fin 16) (fb : Framebuffer) (b : Byte) :
      Effect s (.drw x y n) ((s.setFb fb).setV regF b)

namespace Effect

/-- No write at all. -/
theorem unchanged (s : State) (i : Instr) : Effect s i s :=
  regs (v := s.v) fun _ hk => absurd rfl hk

theorem setV {s : State} {i : Instr} {x : Reg} {b : Byte} (hi : MayWriteV i x) :
    Effect s i (s.setV x b) :=
  regs (v := s.v.set x b) fun k hk => by
    have hkx : k = x := by
      by_contra hne
      exact hk ((s.getV_setV x k b).trans (if_neg hne))
    exact hkx ▸ hi

theorem setV_setV {s : State} {i : Instr} {x y : Reg} {b c : Byte} (hx : MayWriteV i x)
    (hy : MayWriteV i y) : Effect s i ((s.setV x b).setV y c) :=
  regs (v := (s.v.set x b).set y c) fun k hk => by
    have hkxy : k = y ∨ k = x := by
      by_contra hne
      obtain ⟨hky, hkx⟩ := not_or.1 hne
      refine hk (((s.setV x b).getV_setV y k c).trans ?_)
      rw [if_neg hky, State.getV_setV, if_neg hkx]
    obtain rfl | rfl := hkxy
    · exact hy
    · exact hx

end Effect

/-! ## The meanings with more than one outcome -/

theorem effect_of_raise {c : Cause} {i : Instr} {s t : State} (hc : InstrRaises i s c)
    (h : raise c i s = .next t) : Effect s i t := by
  cases h
  exact .fault hc

theorem effect_of_skipIf {c : Bool} {i : Instr} {s t : State} (hi : MovesPc i)
    (h : skipIf c s = .next t) : Effect s i t := by
  rw [skipIf_eq] at h
  cases h
  refine .pc hi fun ⟨_, hle⟩ => ?_
  split
  · have h2 : (s.pc + 2).toNat = s.pc.toNat + 2 := by bv_omega
    omega
  · omega

theorem effect_of_execRet {s t : State} (h : execRet s = .next t) : Effect s .ret t := by
  by_cases h0 : s.sp = 0
  · rw [execRet, State.pop_of_empty h0] at h
    exact effect_of_raise (c := .stackUnderflow) ⟨rfl, congrArg Fin.val h0⟩ h
  · have hpos : 0 < s.sp.val := Nat.pos_of_ne_zero fun hv => h0 (Fin.ext hv)
    rw [execRet, State.pop_of_pos hpos] at h
    cases h
    exact .ret hpos

theorem effect_of_execCall {nnn : Addr12} {s t : State} (h : execCall nnn s = .next t) :
    Effect s (.call nnn) t := by
  by_cases h16 : s.sp = 16
  · rw [execCall, State.push_of_full h16] at h
    exact effect_of_raise (c := .stackOverflow) ⟨nnn, rfl, congrArg Fin.val h16⟩ h
  · have hlt : s.sp.val < 16 :=
      Nat.lt_of_le_of_ne (Nat.le_of_lt_succ s.sp.isLt) fun hv => h16 (Fin.ext hv)
    rw [execCall, State.push_of_lt hlt] at h
    cases h
    exact .call nnn hlt

theorem effect_of_execJpV0 (nnn : Addr12) (s : State) :
    Effect s (.jpV0 nnn) (s.setPc (zextAddr nnn + zextByte (s.getV reg0))) := by
  refine .pc trivial fun _ => ?_
  have ha := nnn.isLt
  have hb := (s.getV reg0).isLt
  rw [BitVec.toNat_add, zextAddr_toNat, zextByte_toNat]
  omega

theorem effect_of_execLdK {x : Reg} {s t : State} (h : execLdK x s = .next t) :
    Effect s (.ldK x) t := by
  unfold execLdK at h
  cases hk : heldKey s.key with
  | some k =>
    rw [hk] at h
    cases h
    exact .setV rfl
  | none =>
    rw [hk] at h
    cases h
    refine .pc trivial fun ⟨h2, hle⟩ => ?_
    have hsub : (s.pc - 2).toNat = s.pc.toNat - 2 := by bv_omega
    omega

/-- A store by LD_B or ST_REGS; `hoob` is the instruction's own condition for MEM_OOB. -/
theorem effect_of_storeAtI {bytes : List Byte} {i : Instr} {s t : State}
    (hi : (∃ x, i = .ldB x) ∨ ∃ x, i = .stRegs x)
    (hoob : 4096 < s.i.toNat + bytes.length → InstrRaises i s .memOob)
    (h : storeAtI bytes i s = .next t) : Effect s i t := by
  obtain ⟨hr, heq⟩ | ⟨-, hgt, heq⟩ := storeAtI_cases bytes i s
  · rw [heq] at h
    cases h
    exact .store hi fun hm => Memory.wf_store hm (Memory.store_eq_some.2 ⟨hr, rfl⟩)
  · rw [heq] at h
    exact effect_of_raise (hoob hgt) h

theorem effect_of_execLdB {x : Reg} {s t : State} (h : execLdB x s = .next t) :
    Effect s (.ldB x) t :=
  effect_of_storeAtI (.inl ⟨x, rfl⟩)
    (fun hgt => .inl ⟨x, rfl, by rw [bcdDigits_length] at hgt; omega⟩) h

theorem effect_of_execStRegs {x : Reg} {s t : State} (h : execStRegs x s = .next t) :
    Effect s (.stRegs x) t :=
  effect_of_storeAtI (.inr ⟨x, rfl⟩)
    (fun hgt => .inr (.inl ⟨x, .inl rfl, by rw [regsUpTo_length] at hgt; omega⟩)) h

theorem effect_of_execLdRegs {x : Reg} {s t : State} (h : execLdRegs x s = .next t) :
    Effect s (.ldRegs x) t := by
  obtain ⟨-, heq⟩ | ⟨hgt, heq⟩ := execLdRegs_cases x s
  · rw [heq] at h
    cases h
    refine .regs fun k hk => ?_
    by_contra hkx
    have hlt : x.val < k.val := Nat.lt_of_not_le hkx
    rw [loadRegsFrom_get, Memory.getBytes_length, if_neg (by omega)] at hk
    exact hk rfl
  · rw [heq] at h
    exact effect_of_raise (c := .memOob) (.inr (.inl ⟨x, .inr rfl, hgt⟩)) h

theorem effect_of_execDrw {x y : Reg} {n : Fin 16} {s t : State} (h : execDrw x y n s = .next t) :
    Effect s (.drw x y n) t := by
  obtain ⟨-, d, -, heq⟩ | ⟨hn, hgt, heq⟩ := execDrw_cases x y n s
  · rw [heq] at h
    cases h
    exact .draw x y n d.1 (flag d.2)
  · rw [heq] at h
    exact effect_of_raise (c := .memOob) (.inr (.inr ⟨x, y, n, rfl, by omega, by omega⟩)) h

/-- A key skip by SKP or SKNP. -/
theorem effect_of_skipIfKey {down : Bool} {x : Reg} {i : Instr} {s t : State} (hi : MovesPc i)
    (hoob : i = .skp x ∨ i = .sknp x) (h : skipIfKey down x i s = .next t) : Effect s i t := by
  unfold skipIfKey at h
  cases hk : keyIndex (s.getV x) with
  | some k =>
    rw [hk] at h
    exact effect_of_skipIf hi h
  | none =>
    rw [hk] at h
    exact effect_of_raise (c := .keyIndexOob) ⟨x, hoob, keyIndex_eq_none.1 hk⟩ h

/-- Whatever `exec` answers is an effect of its instruction. -/
theorem effect_of_exec {i : Instr} {s t : State} (h : exec i s = .next t) : Effect s i t := by
  cases i with
  | nop => cases h; exact .unchanged s _
  | cls => cases h; exact .clear _
  | ret => exact effect_of_execRet h
  | jp nnn =>
    cases h
    exact .pc trivial fun _ => by rw [zextAddr_toNat]; omega
  | call nnn => exact effect_of_execCall h
  | jpV0 nnn => cases h; exact effect_of_execJpV0 nnn s
  | seImm x kk | sneImm x kk | seReg x y | sneReg x y => exact effect_of_skipIf trivial h
  | ldImm x kk | addImm x kk | ldReg x y | or x y | and x y | xor x y | ldVxDt x =>
    cases h; exact .setV rfl
  | addReg x y | sub x y | subn x y => cases h; exact .setV_setV (.inl rfl) (.inr rfl)
  | shr x k | shl x k => cases h; exact .setV_setV (.inr rfl) (.inl rfl)
  | rnd x kk => cases h; exact .random x kk _
  | drw x y n => exact effect_of_execDrw h
  | ldI a => cases h; exact .index (.inl ⟨a, rfl⟩)
  | addI x => cases h; exact .index (.inr (.inl ⟨x, rfl⟩))
  | ldF x => cases h; exact .index (.inr (.inr ⟨x, rfl⟩))
  | ldB x => exact effect_of_execLdB h
  | stRegs x => exact effect_of_execStRegs h
  | ldRegs x => exact effect_of_execLdRegs h
  | skp x => exact effect_of_skipIfKey trivial (.inl rfl) h
  | sknp x => exact effect_of_skipIfKey trivial (.inr rfl) h
  | ldK x => exact effect_of_execLdK h
  | ldDtVx x => cases h; exact .delay x _
  | ldStVx x => cases h; exact .sound x _

end Sys2Proof.Machine
end

section
/-! PROOFS. The invariant of the machine (spec/10_state.md R24, R26, R33): it holds at reset, and STEP and
every other operation of the host keep it. -/

namespace Sys2Proof.Machine

namespace State.Inv

/-- The invariant reads memory, `pc`, the stack and `FAULT` only. -/
theorem of_eq {s t : State} (hs : s.Inv) (hmem : t.mem = s.mem) (hpc : t.pc = s.pc)
    (hstack : t.stack = s.stack) (hsp : t.sp = s.sp) (hfault : t.fault = s.fault) : t.Inv where
  memCanonical := hmem ▸ hs.memCanonical
  pcBound := hpc ▸ hs.pcBound
  liveEntries k hk := by
    rw [hstack]
    exact hs.liveEntries k (hsp ▸ hk)
  faultCoherent := hfault ▸ hs.faultCoherent

theorem setPc {s : State} (hs : s.Inv) {p : Word} (hp : p.toNat ≤ 0x10FE) : (s.setPc p).Inv :=
  { hs with pcBound := hp }

theorem setMem {s : State} (hs : s.Inv) {m : Memory} (hm : m.wf = true) : (s.setMem m).Inv :=
  { hs with memCanonical := hm }

theorem setStack {s : State} (hs : s.Inv) {stack : Vector Word 16} {sp : Fin 17}
    (hlive : ∀ k : Fin 16, k.val < sp.val → (stack.get k).toNat ≤ 4096) :
    (s.setStack stack sp).Inv :=
  { hs with liveEntries := hlive }

/-- A fault is recorded with a cause of R171. -/
theorem takeFault {s : State} (hs : s.Inv) {c : Cause} (hc : c ≠ .none) (op a : Word) :
    (s.takeFault c op a).Inv :=
  { hs with faultCoherent := ⟨Bool.noConfusion, fun _ => hc⟩ }

end State.Inv

theorem InstrRaises.ne_none {i : Instr} {s : State} {c : Cause} (hc : InstrRaises i s c) :
    c ≠ .none := by
  rintro rfl
  exact hc

/-- After a push the live entries are the old ones and the word pushed. -/
theorem State.Inv.setStack_push {s : State} (hs : s.Inv) {w : Word} (hw : w.toNat ≤ 4096)
    (h : s.sp.val < 16) :
    (s.setStack (s.stack.set s.sp.val w h) ⟨s.sp.val + 1, by omega⟩).Inv :=
  hs.setStack fun k hk => by
    have hk : k.val < s.sp.val + 1 := hk
    rw [Vector.get_eq_getElem, Vector.getElem_set]
    split
    · exact hw
    · exact hs.liveEntries k (by omega)

/-- The entries below a lower `SP` were live before. -/
theorem State.Inv.setStack_pop {s : State} (hs : s.Inv) :
    (s.setStack s.stack ⟨s.sp.val - 1, by omega⟩).Inv :=
  hs.setStack fun k hk => hs.liveEntries k (Nat.lt_of_lt_of_le hk (Nat.sub_le ..))

/-- What an instruction does after a fetch keeps the invariant. -/
theorem Effect.inv {i : Instr} {s t : State} (h : Effect s i t) (hs : s.Inv) (hf : s.Fetched) :
    t.Inv := by
  obtain ⟨hlo, hhi⟩ := hf
  cases h with
  | fault hc =>
    have hsub : (s.pc - 2).toNat = s.pc.toNat - 2 := by bv_omega
    exact (hs.setPc (p := s.pc - 2) (by omega)).takeFault hc.ne_none _ _
  | pc _ hp => exact hs.setPc (hp ⟨hlo, hhi⟩)
  | store _ hm => exact hs.setMem (hm hs.memCanonical)
  | call nnn hlt =>
    refine (hs.setStack_push hhi hlt).setPc ?_
    rw [zextAddr_toNat]
    omega
  | ret hpos =>
    have htop : (s.stack[s.sp.val - 1]'(by omega)).toNat ≤ 4096 :=
      hs.liveEntries ⟨s.sp.val - 1, by omega⟩ (Nat.sub_lt hpos Nat.one_pos)
    exact hs.setStack_pop.setPc (Nat.le_trans htop (by decide))
  | regs | random | index | delay | sound | clear | draw => exact hs.of_eq rfl rfl rfl rfl rfl

theorem State.Inv.step {s t : State} (hs : s.Inv) (h : step s = .next t) : t.Inv := by
  obtain ⟨-, heq⟩ | ⟨-, -, heq⟩ | ⟨op, -, -, -, heq⟩ | ⟨op, i, -, hfetch, -, heq⟩ := step_cases s
  · cases heq.symm.trans h
    exact hs
  · cases heq.symm.trans h
    exact hs.takeFault (by decide) _ _
  · cases heq.symm.trans h
    exact hs.takeFault (by decide) _ _
  · have hpc := State.pc_of_fetch hfetch
    have hadd : (s.pc + 2).toNat = s.pc.toNat + 2 := by bv_omega
    have hf : (s.setPc (s.pc + 2)).Fetched := by
      rw [State.Fetched, State.setPc_pc]
      omega
    exact (effect_of_exec (heq.symm.trans h)).inv (hs.setPc (by omega)) hf

/-- Settles O53: by what a STEP can do, and for an instruction by its effects. -/
theorem stepKeepsTheInvariant : Obligations.StepKeepsTheInvariant :=
  fun _ _ => State.Inv.step

/-- The state after reset meets the invariant, whatever the count of draws. -/
theorem State.Inv.resetOp (s : State) : s.resetOp.Inv where
  memCanonical := Memory.wf_reset
  pcBound := (by decide : State.reset.pc.toNat ≤ 0x10FE)
  liveEntries _ hk := absurd hk (Nat.not_lt_zero _)
  faultCoherent := ⟨fun _ => rfl, Bool.noConfusion⟩

/-- Settles O52: the constructed state is what RESET leaves. -/
theorem resetMeetsTheInvariant : Obligations.ResetMeetsTheInvariant :=
  State.Inv.resetOp State.reset

/-- A program that fits lies inside the 4096 bytes. -/
theorem State.Inv.loadProgram {s : State} (hs : s.Inv) (bytes : List Byte) :
    (loadProgram bytes s).Inv := by
  unfold Machine.loadProgram
  split
  · exact hs
  · split
    · next hfit =>
      have hlen : bytes.length ≤ 3584 := of_decide_eq_true hfit
      refine hs.setMem (Memory.wf_setBytes hs.memCanonical ?_)
      show 512 + bytes.length ≤ 4096
      omega
    · exact hs.takeFault (by decide) _ _

theorem State.Inv.timerTick {s : State} (hs : s.Inv) : (timerTick s).1.Inv := by
  unfold Machine.timerTick
  split
  · exact hs
  · exact hs.of_eq rfl rfl rfl rfl rfl

theorem State.Inv.setKey {s : State} (hs : s.Inv) (index : Fin 16) (pressed : Bool) :
    (setKey index pressed s).Inv := by
  unfold Machine.setKey
  split
  · exact hs
  · exact hs.of_eq rfl rfl rfl rfl rfl

theorem State.Inv.runOp {op : HostOp} {s t : State} (hs : s.Inv) (h : runOp op s = .next t) :
    t.Inv := by
  cases op with
  | reset => cases h; exact .resetOp s
  | loadProgram bytes => cases h; exact hs.loadProgram bytes
  | step => exact hs.step h
  | timerTick => cases h; exact hs.timerTick
  | setKey index pressed => cases h; exact hs.setKey index pressed

theorem State.Inv.runSchedule {ops : List HostOp} {s t : State} (hs : s.Inv)
    (h : runSchedule ops s = .next t) : t.Inv := by
  induction ops generalizing s with
  | nil => cases h; exact hs
  | cons op ops ih =>
    obtain ⟨u, hu⟩ := exists_runOp_eq_next op s
    rw [runSchedule_cons_of_next hu] at h
    exact ih (hs.runOp hu) h

/-- Settles O54: by induction on the list, each operation keeping the invariant. -/
theorem everyRunKeepsTheInvariant : Obligations.EveryRunKeepsTheInvariant :=
  fun _ _ _ => State.Inv.runSchedule

end Sys2Proof.Machine
end

section
/-! PROOFS. Noninterference: which instruction may change an element of the state (spec/10_state.md R41,
R22), read off its effect; and no instruction reads `ST` (R29). -/

namespace Sys2Proof.Machine

/-- The instructions that can fail (R171). -/
theorem InstrRaises.instr {i : Instr} {s : State} {c : Cause} (hc : InstrRaises i s c) :
    (∃ a, i = .call a) ∨ i = .ret ∨ (∃ x, i = .ldB x) ∨ (∃ x, i = .stRegs x) ∨
      (∃ x, i = .ldRegs x) ∨ (∃ x y n, i = .drw x y n) ∨ (∃ x, i = .skp x) ∨ ∃ x, i = .sknp x := by
  cases c with
  | stackOverflow =>
    obtain ⟨a, rfl, -⟩ := hc
    simp
  | stackUnderflow =>
    obtain ⟨rfl, -⟩ := hc
    simp
  | memOob =>
    obtain ⟨x, rfl, -⟩ | ⟨x, rfl | rfl, -⟩ | ⟨x, y, n, rfl, -⟩ := hc
    all_goals simp
  | keyIndexOob =>
    obtain ⟨x, rfl | rfl, -⟩ := hc
    all_goals simp
  | none | fetchOob | undefinedOpcode | loadCapacity => exact hc.elim

/-- Settles O17: each effect writes the elements its constructor names, and no other. -/
theorem onlyNamedInstructionsWrite : Obligations.OnlyNamedInstructionsWrite := by
  intro i s t h
  cases effect_of_exec h with
  | @fault _ c hc =>
    refine ⟨?_, fun _ => .inr ⟨c, rfl⟩, ?_⟩
    · simp
    · simp [hc.instr]
  | pc hi => simp [hi]
  | regs hv => simpa using hv
  | random x kk b => simp [MayWriteV]
  | index hi => simp [hi]
  | store hi => simp [hi]
  | call nnn => simp [MovesPc]
  | ret => simp [MovesPc]
  | delay x b => simp
  | sound x b => simp
  | clear fb => simp
  | draw x y n fb b => simp [MayWriteV]

/-- An instruction that may write VF is one of the two kinds of R22. -/
theorem mayWriteVF_of_mayWriteV {i : Instr} (h : MayWriteV i regF) : MayWriteVF i := by
  cases i with
  | addReg | sub | shr | subn | shl | drw => trivial
  | ldRegs x => exact Fin.le_antisymm (Fin.le_last x) h
  | ldImm | addImm | ldReg | or | and | xor | rnd | ldVxDt | ldK => exact h.symm
  | _ => exact h

/-- Settles O18: the register clause of R41 at VF. -/
theorem onlyFlagWritersAndDestinationsChangeVF :
    Obligations.OnlyFlagWritersAndDestinationsChangeVF := by
  intro i s t h hne
  obtain ⟨-, -, hv, -⟩ := onlyNamedInstructionsWrite i s t h
  exact mayWriteVF_of_mayWriteV (hv regF hne)

/-! ## `ST` is not read: an instruction commutes with a change of `ST` -/

section
variable {s t : State} {i : Instr} (b : Byte)

theorem State.setSt_push (w : Word) : (s.setSt b).push w = (s.push w).map (·.setSt b) := by
  by_cases h : s.sp.val < 16
  · rw [push_of_lt h, push_of_lt (s := s.setSt b) h]; rfl
  · simp [push, h]

theorem State.setSt_pop : (s.setSt b).pop = s.pop.map fun p => (p.1, p.2.setSt b) := by
  by_cases h : 0 < s.sp.val
  · rw [pop_of_pos h, pop_of_pos (s := s.setSt b) h]; rfl
  · simp [pop, h]

theorem execRet_setSt (h : execRet s = .next t) : execRet (s.setSt b) = .next (t.setSt b) := by
  unfold execRet at h ⊢
  rw [State.setSt_pop]
  generalize s.pop = r at h ⊢
  cases r with
  | some _ => cases h; rfl
  | none => cases h; rfl

theorem execCall_setSt {nnn : Addr12} (h : execCall nnn s = .next t) :
    execCall nnn (s.setSt b) = .next (t.setSt b) := by
  unfold execCall at h ⊢
  rw [State.setSt_push, State.setSt_pc]
  generalize s.push s.pc = r at h ⊢
  cases r with
  | some _ => cases h; rfl
  | none => cases h; rfl

theorem execLdK_setSt {x : Reg} (h : execLdK x s = .next t) :
    execLdK x (s.setSt b) = .next (t.setSt b) := by
  unfold execLdK at h ⊢
  rw [State.setSt_key]
  generalize heldKey s.key = r at h ⊢
  cases r with
  | some _ => cases h; rfl
  | none => cases h; rfl

theorem storeAtI_setSt {bytes : List Byte} (h : storeAtI bytes i s = .next t) :
    storeAtI bytes i (s.setSt b) = .next (t.setSt b) := by
  unfold storeAtI at h ⊢
  rw [State.setSt_mem, State.setSt_i]
  generalize s.mem.store s.i.toNat bytes = r at h ⊢
  cases r with
  | some _ => cases h; rfl
  | none => cases h; rfl

theorem execLdRegs_setSt {x : Reg} (h : execLdRegs x s = .next t) :
    execLdRegs x (s.setSt b) = .next (t.setSt b) := by
  unfold execLdRegs at h ⊢
  rw [State.setSt_mem, State.setSt_i]
  generalize s.mem.load s.i.toNat (x.val + 1) = r at h ⊢
  cases r with
  | some _ => cases h; rfl
  | none => cases h; rfl

theorem execDrw_setSt {x y : Reg} {n : Fin 16} (h : execDrw x y n s = .next t) :
    execDrw x y n (s.setSt b) = .next (t.setSt b) := by
  unfold execDrw at h ⊢
  rw [State.setSt_mem, State.setSt_i]
  generalize s.mem.load s.i.toNat n.val = r at h ⊢
  cases r with
  | some _ => cases h; rfl
  | none => cases h; rfl

theorem skipIf_setSt {c : Bool} (h : skipIf c s = .next t) :
    skipIf c (s.setSt b) = .next (t.setSt b) := by
  rw [skipIf_eq] at h ⊢
  cases h
  rfl

theorem skipIfKey_setSt {down : Bool} {x : Reg} (h : skipIfKey down x i s = .next t) :
    skipIfKey down x i (s.setSt b) = .next (t.setSt b) := by
  unfold skipIfKey at h ⊢
  rw [State.setSt_getV, State.setSt_key]
  generalize keyIndex (s.getV x) = r at h ⊢
  cases r with
  | some k => exact skipIf_setSt b h
  | none => cases h; rfl

end

/-- Settles O45: `ST` is carried through unread, or overwritten by LD_ST_VX. -/
theorem soundTimerIsInvisibleToPrograms : Obligations.SoundTimerIsInvisibleToPrograms := by
  intro i s t b h
  cases i with
  | ldStVx x => cases h; exact ⟨s.getV x, rfl⟩
  | ret => exact ⟨b, execRet_setSt b h⟩
  | call nnn => exact ⟨b, execCall_setSt b h⟩
  | ldK x => exact ⟨b, execLdK_setSt b h⟩
  | ldB x | stRegs x => exact ⟨b, storeAtI_setSt b h⟩
  | ldRegs x => exact ⟨b, execLdRegs_setSt b h⟩
  | drw x y n => exact ⟨b, execDrw_setSt b h⟩
  | skp x | sknp x => exact ⟨b, skipIfKey_setSt b h⟩
  | seImm x kk | sneImm x kk | seReg x y | sneReg x y => exact ⟨b, skipIf_setSt b h⟩
  | _ => cases h; exact ⟨b, rfl⟩

end Sys2Proof.Machine
end

section
/-! PROOFS. The reset values (spec/10_state.md R40, spec/20_memory.md R51). -/

namespace Sys2Proof.Machine

/-- At reset memory lists no byte of its own. -/
theorem reset_mem_get (a : Nat) : State.reset.mem.get a = resetByte a := rfl

/-- Glyph `d` of FONT has its five rows at `5 * d` and up (R51). -/
theorem resetByte_glyphRow {d r : Nat} (hd : d < 16) (hr : r < 5) :
    resetByte (5 * d + r) = (Config.glyphs.getD d []).getD r 0 := by
  have hrows : ∀ d < 16, ∀ r < 5,
      Config.font.getD (5 * d + r) 0 = (Config.glyphs.getD d []).getD r 0 := by decide
  exact hrows d hd r hr

/-- FONT ends below 0x050. -/
theorem resetByte_of_ge {a : Nat} (ha : 0x050 ≤ a) : resetByte a = 0 := by
  have hlen : Config.font.length = 0x050 := by decide
  exact List.getD_eq_default _ _ (hlen ▸ ha)

/-- Settles O7: element by element. -/
theorem resetStateValues : Obligations.ResetStateValues := by
  refine ⟨rfl, fun x => ?_, rfl, rfl, fun k => ?_, rfl, rfl, fun x y => ?_, fun k => ?_,
    fun d r hd hr => (reset_mem_get _).trans (resetByte_glyphRow hd hr),
    fun a ha => (reset_mem_get a).trans (resetByte_of_ge ha), rfl⟩
  · exact Vector.getElem_replicate x.isLt
  · exact Vector.getElem_replicate k.isLt
  · exact Framebuffer.pixel_blank x y
  · exact Vector.getElem_replicate k.isLt

end Sys2Proof.Machine
end

section
/-! PROOFS. Stored bytes read back as an instruction (spec/20_memory.md R55, R56, R62): what a store from
`I` leaves in memory is what a fetch there reads, the lower address the high byte. -/

namespace Sys2Proof.Machine

/-- Byte `k` of those stored from `I` stands at `I + k` (R56). -/
theorem mem_get_of_storeAtI {bytes : List Byte} {i : Instr} {s t : State} {k : Nat}
    (hfit : s.i.toNat + bytes.length ≤ 4096) (h : storeAtI bytes i s = .next t)
    (hk : k < bytes.length) : t.mem.get (s.i.toNat + k) = bytes.getD k 0 := by
  obtain ⟨-, heq⟩ | ⟨-, hgt, -⟩ := storeAtI_cases bytes i s
  · cases heq.symm.trans h
    rw [State.setMem_mem, Memory.get_setBytes, if_pos (by omega), Nat.add_sub_cancel_left]
  · omega

/-- A fetch at `I + k` reads bytes `k` and `k + 1` of those stored from `I`. -/
theorem fetch_of_storeAtI {bytes : List Byte} {i : Instr} {s t u : State} {k : Nat}
    (hfit : s.i.toNat + bytes.length ≤ 4096) (h : storeAtI bytes i s = .next t)
    (hmem : u.mem = t.mem) (hpc : u.pc.toNat = s.i.toNat + k) (hk : k + 1 < bytes.length) :
    ∃ op, u.fetch = some op ∧
      op.toNat = (bytes.getD k 0).toNat * 256 + (bytes.getD (k + 1) 0).toNat := by
  refine ⟨_, State.fetch_of_le (by omega), ?_⟩
  rw [wordOfBytes_toNat, hmem, hpc, Nat.add_assoc,
    mem_get_of_storeAtI hfit h (Nat.lt_of_succ_lt hk), mem_get_of_storeAtI hfit h hk]

/-- Settles O38: the bytes are V0 to Vx for ST_REGS and the three digits for LD_B. -/
theorem storedBytesAreFetchedAsAnInstruction :
    Obligations.StoredBytesAreFetchedAsAnInstruction := by
  refine ⟨fun s t u x k l hfit hl hlx h hmem hpc => ?_, fun s t u x hfit h hmem => ?_⟩
  · have hlx' : l.val ≤ x.val := hlx
    have hkx : k ≤ x := Fin.le_def.2 (by omega)
    have hlen := regsUpTo_length s.v x
    have hfetch := fetch_of_storeAtI (by omega) h hmem hpc (by omega)
    rwa [← hl, regsUpTo_getD _ _ _ hkx, regsUpTo_getD _ _ _ hlx] at hfetch
  · have hlen := bcdDigits_length (s.getV x)
    obtain ⟨hundreds, tens, ones⟩ := bcdDigits_toNat (s.getV x)
    rw [← hundreds, ← tens, ← ones]
    exact ⟨fun hpc => fetch_of_storeAtI (k := 0) (by omega) h hmem hpc (by omega),
      fun hpc => fetch_of_storeAtI (k := 1) (by omega) h hmem hpc (by omega)⟩

end Sys2Proof.Machine
end

section
/-! PROOFS. Decoding and encoding undo each other (spec/30_encoding.md R70 to R77): the decoder of an
instruction's word, the word of what was decoded, the words that decode to nothing. -/

namespace Sys2Proof

/-! ## From the instruction to the word and back (R72, R75) -/

/-- Format by format, and in a family of several rows (R74) by the nibble or the byte that tells them
apart; the fields of a word that was put together are the ones it was put together from. -/
theorem decodeWord_encode (i : Instr) : decodeWord (encode i) = some i := by
  cases i with
  | nop | cls | ret => rfl
  | jp a | call a | ldI a | jpV0 a => simp [encode, decodeWord]
  | seImm x k | sneImm x k | ldImm x k | addImm x k | rnd x k => simp [encode, decodeWord]
  | drw x y n => simp [encode, decodeWord]
  | seReg x y | sneReg x y => simp [encode, decodeWord]
  | ldReg x y | or x y | and x y | xor x y | addReg x y | sub x y | shr x y | subn x y | shl x y =>
    simp [encode, decodeWord, decode8]
  | skp x | sknp x => simp [encode, decodeWord, decodeE]
  | ldVxDt x | ldK x | ldDtVx x | ldStVx x | addI x | ldF x | ldB x | stRegs x | ldRegs x =>
    simp [encode, decodeWord, decodeF]

/-- Settles O1: the two bytes are the encoded word's, so the decoder reads that word. -/
theorem decodeOfEncode : Obligations.DecodeOfEncode := by
  refine fun i => ⟨decodeWord_encode i, fun rest => ?_⟩
  have h := decode_bytes (encode i) rest
  rwa [decodeWord_encode] at h

/-! ## A word is put together from its fields (R71) -/

theorem wordNNN_eq {op : Word} {n1 : BitVec 4} (h1 : (fieldN1 op).val = n1.toNat) :
    wordNNN n1 (fieldNNN op) = op := by
  apply BitVec.eq_of_toNat_eq
  rw [wordNNN_toNat, fieldNNN_toNat, ← h1, fieldN1_val]
  omega

theorem wordXKK_eq {op : Word} {n1 : BitVec 4} {kk : Byte} (h1 : (fieldN1 op).val = n1.toNat)
    (hk : (fieldKK op).toNat = kk.toNat) : wordXKK n1 (fieldX op) kk = op := by
  apply BitVec.eq_of_toNat_eq
  rw [wordXKK_toNat, fieldX_val, ← h1, ← hk, fieldN1_val, fieldKK_toNat]
  omega

theorem wordXYN_eq {op : Word} {n1 : BitVec 4} {n : Fin 16} (h1 : (fieldN1 op).val = n1.toNat)
    (hn : (fieldN op).val = n.val) : wordXYN n1 (fieldX op) (fieldY op) n = op := by
  apply BitVec.eq_of_toNat_eq
  rw [wordXYN_toNat, fieldX_val, fieldY_val, ← h1, ← hn, fieldN1_val, fieldN_val]
  omega

/-! ## From the word to the instruction and back -/

theorem encode_of_decode0 {op : Word} {i : Instr} (h : decode0 op = some i) : encode i = op := by
  simp only [decode0] at h
  split_ifs at h <;> cases h <;> exact Eq.symm ‹_›

theorem encode_of_decode8 {op : Word} {i : Instr} (h1 : (fieldN1 op).val = 0x8)
    (h : decode8 op = some i) : encode i = op := by
  unfold decode8 at h
  split at h <;> cases h <;> exact wordXYN_eq h1 ‹_›

theorem encode_of_decodeE {op : Word} {i : Instr} (h1 : (fieldN1 op).val = 0xE)
    (h : decodeE op = some i) : encode i = op := by
  unfold decodeE at h
  split at h <;> cases h <;> exact wordXKK_eq h1 ‹_›

theorem encode_of_decodeF {op : Word} {i : Instr} (h1 : (fieldN1 op).val = 0xF)
    (h : decodeF op = some i) : encode i = op := by
  unfold decodeF at h
  split at h <;> cases h <;> exact wordXKK_eq h1 ‹_›

/-- Along the dispatch of R74 (case `h_k` is the major nibble k - 1): an instruction keeps the fields
that its row leaves open. -/
theorem encode_of_decodeWord {op : Word} {i : Instr} (h : decodeWord op = some i) :
    encode i = op := by
  unfold decodeWord at h
  split at h
  case h_1 => exact encode_of_decode0 h
  case h_9 h1 => exact encode_of_decode8 h1 h
  case h_15 h1 => exact encode_of_decodeE h1 h
  case h_16 h1 => exact encode_of_decodeF h1 h
  case h_6 h1 | h_10 h1 =>
    split at h <;> cases h
    next hn => exact wordXYN_eq h1 (congrArg Fin.val hn)
  case h_4 h1 | h_5 h1 | h_7 h1 | h_8 h1 | h_13 h1 => cases h; exact wordXKK_eq h1 rfl
  case h_2 h1 | h_3 h1 | h_11 h1 | h_12 h1 => cases h; exact wordNNN_eq h1
  case h_14 h1 => cases h; exact wordXYN_eq h1 rfl
  case h_17 => cases h

/-- Settles O2: branch by branch of the dispatch. -/
theorem encodeOfDecode : Obligations.EncodeOfDecode := fun _ _ => encode_of_decodeWord

/-- The defined words are the encodings. -/
theorem decodeWord_eq_some_iff {op : Word} {i : Instr} : decodeWord op = some i ↔ encode i = op :=
  ⟨encode_of_decodeWord, fun h => h ▸ decodeWord_encode i⟩

/-- Settles O5: each word is the encoding of its instruction. -/
theorem sampleWordsDecode : Obligations.SampleWordsDecode :=
  ⟨decodeWord_encode .ret, decodeWord_encode (.jp 0x204), decodeWord_encode (.call 0xABC),
    decodeWord_encode (.addImm 3 0x05), decodeWord_encode (.shr 3 0xA),
    decodeWord_encode (.ldI 0x300), decodeWord_encode (.rnd 15 0x0F),
    decodeWord_encode (.drw 0 1 2), decodeWord_encode (.skp 1), decodeWord_encode (.ldRegs 2)⟩

/-! ## The opcode table (R75)

A row's match is the encoding of its instruction with every operand 0, and its mask covers the
fields that are no operands. -/

/-- The mask 0xFFFF tells the whole word. -/
theorem eq_of_and_FFFF {op w : Word} (h : op &&& 0xFFFF = w) : w = op :=
  h ▸ BitVec.eq_of_toNat_eq (and_FFFF op)

/-- The mask 0xF000 tells n1. -/
theorem fieldN1_of_and {op : Word} {n1 : BitVec 4} (h : op &&& 0xF000 = wordNNN n1 0) :
    (fieldN1 op).val = n1.toNat := by
  have h := congrArg BitVec.toNat h
  rw [and_F000, wordNNN_toNat, BitVec.ofNat_eq_ofNat, BitVec.toNat_zero] at h
  rw [fieldN1_val]
  omega

/-- The mask 0xF00F tells n1 and n4. -/
theorem wordXYN_of_and {op : Word} {n1 : BitVec 4} {n : Fin 16}
    (h : op &&& 0xF00F = wordXYN n1 0 0 n) : wordXYN n1 (fieldX op) (fieldY op) n = op := by
  have h := congrArg BitVec.toNat h
  rw [and_F00F, wordXYN_toNat, Fin.val_zero] at h
  refine wordXYN_eq ?_ ?_
  · rw [fieldN1_val]; omega
  · rw [fieldN_val]; omega

/-- The mask 0xF0FF tells n1 and kk. -/
theorem wordXKK_of_and {op : Word} {n1 : BitVec 4} {kk : Byte}
    (h : op &&& 0xF0FF = wordXKK n1 0 kk) : wordXKK n1 (fieldX op) kk = op := by
  have h := congrArg BitVec.toNat h
  have := kk.isLt
  rw [and_F0FF, wordXKK_toNat, Fin.val_zero] at h
  refine wordXKK_eq ?_ ?_
  · rw [fieldN1_val]; omega
  · rw [fieldKK_toNat]; omega

/-- A word that a row selects is the encoding of the row's instruction with the word's own fields. -/
theorem exists_encode_of_selects {m : Mnemonic} {op : Word} (h : op &&& m.mask = m.pattern) :
    ∃ i, encode i = op ∧ i.mnemonic = m := by
  cases m with
  | nop => exact ⟨.nop, eq_of_and_FFFF h, rfl⟩
  | cls => exact ⟨.cls, eq_of_and_FFFF h, rfl⟩
  | ret => exact ⟨.ret, eq_of_and_FFFF h, rfl⟩
  | jp => exact ⟨.jp (fieldNNN op), wordNNN_eq (fieldN1_of_and h), rfl⟩
  | call => exact ⟨.call (fieldNNN op), wordNNN_eq (fieldN1_of_and h), rfl⟩
  | seImm => exact ⟨.seImm (fieldX op) (fieldKK op), wordXKK_eq (fieldN1_of_and h) rfl, rfl⟩
  | sneImm => exact ⟨.sneImm (fieldX op) (fieldKK op), wordXKK_eq (fieldN1_of_and h) rfl, rfl⟩
  | seReg => exact ⟨.seReg (fieldX op) (fieldY op), wordXYN_of_and h, rfl⟩
  | ldImm => exact ⟨.ldImm (fieldX op) (fieldKK op), wordXKK_eq (fieldN1_of_and h) rfl, rfl⟩
  | addImm => exact ⟨.addImm (fieldX op) (fieldKK op), wordXKK_eq (fieldN1_of_and h) rfl, rfl⟩
  | ldReg => exact ⟨.ldReg (fieldX op) (fieldY op), wordXYN_of_and h, rfl⟩
  | or => exact ⟨.or (fieldX op) (fieldY op), wordXYN_of_and h, rfl⟩
  | and => exact ⟨.and (fieldX op) (fieldY op), wordXYN_of_and h, rfl⟩
  | xor => exact ⟨.xor (fieldX op) (fieldY op), wordXYN_of_and h, rfl⟩
  | addReg => exact ⟨.addReg (fieldX op) (fieldY op), wordXYN_of_and h, rfl⟩
  | sub => exact ⟨.sub (fieldX op) (fieldY op), wordXYN_of_and h, rfl⟩
  | shr => exact ⟨.shr (fieldX op) (fieldY op), wordXYN_of_and h, rfl⟩
  | subn => exact ⟨.subn (fieldX op) (fieldY op), wordXYN_of_and h, rfl⟩
  | shl => exact ⟨.shl (fieldX op) (fieldY op), wordXYN_of_and h, rfl⟩
  | sneReg => exact ⟨.sneReg (fieldX op) (fieldY op), wordXYN_of_and h, rfl⟩
  | ldI => exact ⟨.ldI (fieldNNN op), wordNNN_eq (fieldN1_of_and h), rfl⟩
  | jpV0 => exact ⟨.jpV0 (fieldNNN op), wordNNN_eq (fieldN1_of_and h), rfl⟩
  | rnd => exact ⟨.rnd (fieldX op) (fieldKK op), wordXKK_eq (fieldN1_of_and h) rfl, rfl⟩
  | drw => exact ⟨.drw (fieldX op) (fieldY op) (fieldN op), wordXYN_eq (fieldN1_of_and h) rfl, rfl⟩
  | skp => exact ⟨.skp (fieldX op), wordXKK_of_and h, rfl⟩
  | sknp => exact ⟨.sknp (fieldX op), wordXKK_of_and h, rfl⟩
  | ldVxDt => exact ⟨.ldVxDt (fieldX op), wordXKK_of_and h, rfl⟩
  | ldK => exact ⟨.ldK (fieldX op), wordXKK_of_and h, rfl⟩
  | ldDtVx => exact ⟨.ldDtVx (fieldX op), wordXKK_of_and h, rfl⟩
  | ldStVx => exact ⟨.ldStVx (fieldX op), wordXKK_of_and h, rfl⟩
  | addI => exact ⟨.addI (fieldX op), wordXKK_of_and h, rfl⟩
  | ldF => exact ⟨.ldF (fieldX op), wordXKK_of_and h, rfl⟩
  | ldB => exact ⟨.ldB (fieldX op), wordXKK_of_and h, rfl⟩
  | stRegs => exact ⟨.stRegs (fieldX op), wordXKK_of_and h, rfl⟩
  | ldRegs => exact ⟨.ldRegs (fieldX op), wordXKK_of_and h, rfl⟩

/-- An instruction's word lies in the instruction's row. -/
theorem encode_and_mask (i : Instr) : encode i &&& i.mnemonic.mask = i.mnemonic.pattern := by
  have row : Laws.OpcodeRow.Statement i := by
    cases i with
    | nop => exact Laws.OpcodeRow.nop
    | cls => exact Laws.OpcodeRow.cls
    | ret => exact Laws.OpcodeRow.ret
    | jp a => exact Laws.OpcodeRow.jp a
    | call a => exact Laws.OpcodeRow.call a
    | seImm x k => exact Laws.OpcodeRow.seImm x k
    | sneImm x k => exact Laws.OpcodeRow.sneImm x k
    | seReg x y => exact Laws.OpcodeRow.seReg x y
    | ldImm x k => exact Laws.OpcodeRow.ldImm x k
    | addImm x k => exact Laws.OpcodeRow.addImm x k
    | ldReg x y => exact Laws.OpcodeRow.ldReg x y
    | or x y => exact Laws.OpcodeRow.or x y
    | and x y => exact Laws.OpcodeRow.and x y
    | xor x y => exact Laws.OpcodeRow.xor x y
    | addReg x y => exact Laws.OpcodeRow.addReg x y
    | sub x y => exact Laws.OpcodeRow.sub x y
    | shr x y => exact Laws.OpcodeRow.shr x y
    | subn x y => exact Laws.OpcodeRow.subn x y
    | shl x y => exact Laws.OpcodeRow.shl x y
    | sneReg x y => exact Laws.OpcodeRow.sneReg x y
    | ldI a => exact Laws.OpcodeRow.ldI a
    | jpV0 a => exact Laws.OpcodeRow.jpV0 a
    | rnd x k => exact Laws.OpcodeRow.rnd x k
    | drw x y n => exact Laws.OpcodeRow.drw x y n
    | skp x => exact Laws.OpcodeRow.skp x
    | sknp x => exact Laws.OpcodeRow.sknp x
    | ldVxDt x => exact Laws.OpcodeRow.ldVxDt x
    | ldK x => exact Laws.OpcodeRow.ldK x
    | ldDtVx x => exact Laws.OpcodeRow.ldDtVx x
    | ldStVx x => exact Laws.OpcodeRow.ldStVx x
    | addI x => exact Laws.OpcodeRow.addI x
    | ldF x => exact Laws.OpcodeRow.ldF x
    | ldB x => exact Laws.OpcodeRow.ldB x
    | stRegs x => exact Laws.OpcodeRow.stRegs x
    | ldRegs x => exact Laws.OpcodeRow.ldRegs x
  exact of_decide_eq_true row

/-- A row selects a word exactly when the word decodes to an instruction of the row (R75, R92). -/
theorem selects_iff_exists_decodeWord {m : Mnemonic} {op : Word} :
    op &&& m.mask = m.pattern ↔ ∃ i, decodeWord op = some i ∧ i.mnemonic = m := by
  simp only [decodeWord_eq_some_iff]
  constructor
  · exact exists_encode_of_selects
  · rintro ⟨i, rfl, rfl⟩
    exact encode_and_mask i

/-- Settles O3: two rows that select a word are both the row of the one instruction it decodes to. -/
theorem dispatchFollowsTheOpcodeTable : Obligations.DispatchFollowsTheOpcodeTable := by
  refine ⟨fun _ _ => selects_iff_exists_decodeWord, fun op m m' h h' => ?_⟩
  obtain ⟨i, hi, rfl⟩ := selects_iff_exists_decodeWord.1 h
  obtain ⟨j, hj, rfl⟩ := selects_iff_exists_decodeWord.1 h'
  cases hi.symm.trans hj
  rfl

/-! ## The undefined words (R76) -/

theorem decode0_eq_none_iff (op : Word) :
    decode0 op = none ↔ op.toNat ∉ [0x0000, 0x00E0, 0x00EE] := by
  simp only [decode0, ← BitVec.toNat_inj]
  split_ifs <;> simp_all

/-- The rows of `8xyN` by their last nibble. -/
theorem decode8_eq_none_iff (op : Word) :
    decode8 op = none ↔ op.toNat % 16 ∈ [0x8, 0x9, 0xA, 0xB, 0xC, 0xD, 0xF] := by
  have hlt : op.toNat % 16 < 16 := Nat.mod_lt _ (by decide)
  rw [decode8, fieldN_val]
  generalize op.toNat % 16 = n at hlt
  interval_cases n <;> simp

theorem decodeE_eq_none_iff (op : Word) :
    decodeE op = none ↔ op.toNat % 256 ∉ [0x9E, 0xA1] := by
  rw [decodeE, fieldKK_toNat]
  split <;> simp_all

theorem decodeF_eq_none_iff (op : Word) : decodeF op = none ↔
    op.toNat % 256 ∉ [0x07, 0x0A, 0x15, 0x18, 0x1E, 0x29, 0x33, 0x55, 0x65] := by
  rw [decodeF, fieldKK_toNat]
  split <;> simp_all

/-- Settles O4: the families of R74 one by one (case `h_k` is the major nibble k - 1). -/
theorem undefinedWordsByMajorNibble : Obligations.UndefinedWordsByMajorNibble := by
  intro op
  have hlt : op.toNat / 4096 < 16 := by have := op.isLt; omega
  rw [decodeWord, fieldN1_val]
  split
  case h_1 h1 => simp [h1, decode0_eq_none_iff]
  case h_9 h1 => simp [h1, decode8_eq_none_iff]
  case h_15 h1 => simp [h1, decodeE_eq_none_iff]
  case h_16 h1 => simp [h1, decodeF_eq_none_iff]
  case h_6 h1 | h_10 h1 => simp [h1, Fin.ext_iff]
  case h_2 h1 | h_3 h1 | h_4 h1 | h_5 h1 | h_7 h1 | h_8 h1 => simp [h1]
  case h_11 h1 | h_12 h1 | h_13 h1 | h_14 h1 => simp [h1]
  case h_17 => interval_cases op.toNat / 4096 <;> contradiction

end Sys2Proof
end

section
/-! PROOFS. Assembling the line that writes an instruction (spec/30_encoding.md R80, R81). -/

namespace Sys2Proof

/-! ## Written operands lie within their fields -/

theorem operandsFit_nnn (a : Addr12) : operandsFit .nnn [.num a.toNat] = true :=
  decide_eq_true a.isLt

theorem operandsFit_xkk (x : Reg) (k : Byte) :
    operandsFit .xkk [.reg x.val, .num k.toNat] = true := by
  simp [operandsFit, k.isLt]

theorem operandsFit_xy (x y : Reg) : operandsFit .xy [.reg x.val, .reg y.val] = true := by
  simp [operandsFit]

theorem operandsFit_xyn (x y : Reg) (n : Fin 16) :
    operandsFit .xyn [.reg x.val, .reg y.val, .num n.val] = true := by
  simp [operandsFit]

theorem operandsFit_x (x : Reg) : operandsFit .x [.reg x.val] = true := decide_eq_true x.isLt

theorem instr_wf (i : Instr) : i.wf = true := by
  cases i with
  | nop | cls | ret => rfl
  | jp a | call a | ldI a | jpV0 a => exact operandsFit_nnn a
  | seImm x k | sneImm x k | ldImm x k | addImm x k | rnd x k => exact operandsFit_xkk x k
  | seReg x y | sneReg x y | ldReg x y | or x y | and x y | xor x y | addReg x y | sub x y
  | subn x y => exact operandsFit_xy x y
  | drw x y n => exact operandsFit_xyn x y n
  | shr x _ | shl x _ => exact operandsFit_x x
  | skp x | sknp x | ldVxDt x | ldK x | ldDtVx x | ldStVx x | addI x | ldF x | ldB x | stRegs x
  | ldRegs x => exact operandsFit_x x

/-! ## A row's match and the operands' fields add up to the encoding -/

theorem wordNNN_eq_add (n1 : BitVec 4) (a : Addr12) :
    wordNNN n1 a = wordNNN n1 0 + BitVec.ofNat 16 (operandBits .nnn [.num a.toNat]) := by
  apply BitVec.eq_of_toNat_eq
  simp [operandBits]
  omega

theorem wordXKK_eq_add (n1 : BitVec 4) (x : Reg) (k : Byte) :
    wordXKK n1 x k =
      wordNNN n1 0 + BitVec.ofNat 16 (operandBits .xkk [.reg x.val, .num k.toNat]) := by
  apply BitVec.eq_of_toNat_eq
  simp [operandBits]
  omega

theorem wordXYN_eq_add_xy (n1 : BitVec 4) (x y : Reg) (n : Fin 16) :
    wordXYN n1 x y n =
      wordXYN n1 0 0 n + BitVec.ofNat 16 (operandBits .xy [.reg x.val, .reg y.val]) := by
  apply BitVec.eq_of_toNat_eq
  simp [operandBits]
  omega

theorem wordXYN_eq_add_xyIgnored (n1 : BitVec 4) (x : Reg) (n : Fin 16) :
    wordXYN n1 x 0 n =
      wordXYN n1 0 0 n + BitVec.ofNat 16 (operandBits .xyIgnored [.reg x.val]) := by
  apply BitVec.eq_of_toNat_eq
  simp [operandBits]
  omega

theorem wordXYN_eq_add_xyn (n1 : BitVec 4) (x y : Reg) (n : Fin 16) :
    wordXYN n1 x y n =
      wordNNN n1 0 +
        BitVec.ofNat 16 (operandBits .xyn [.reg x.val, .reg y.val, .num n.val]) := by
  apply BitVec.eq_of_toNat_eq
  simp [operandBits]
  omega

theorem wordXKK_eq_add_x (n1 : BitVec 4) (x : Reg) (kk : Byte) :
    wordXKK n1 x kk = wordXKK n1 0 kk + BitVec.ofNat 16 (operandBits .x [.reg x.val]) := by
  apply BitVec.eq_of_toNat_eq
  simp [operandBits]
  omega

/-- The instruction that a line written for `i` says: an ignored nibble is not written and is
assembled as 0 (R80). -/
def Instr.asWritten : Instr → Instr
  | .shr x _ => .shr x 0
  | .shl x _ => .shl x 0
  | i => i

theorem encode_asWritten (i : Instr) :
    encode i.asWritten = assembleWord i.mnemonic i.operands := by
  cases i with
  | nop | cls | ret => rfl
  | jp a | call a | ldI a | jpV0 a => exact wordNNN_eq_add _ a
  | seImm x k | sneImm x k | ldImm x k | addImm x k | rnd x k => exact wordXKK_eq_add _ x k
  | seReg x y | sneReg x y | ldReg x y | or x y | and x y | xor x y | addReg x y | sub x y
  | subn x y => exact wordXYN_eq_add_xy _ x y _
  | drw x y n => exact wordXYN_eq_add_xyn _ x y n
  | shr x _ | shl x _ => exact wordXYN_eq_add_xyIgnored _ x _
  | skp x | sknp x | ldVxDt x | ldK x | ldDtVx x | ldStVx x | addI x | ldF x | ldB x | stRegs x
  | ldRegs x => exact wordXKK_eq_add_x _ x _

theorem assemble_toAsm (i : Instr) : assemble i.toAsm = some (encodeBytes i.asWritten) := by
  have hwf : i.toAsm.wf = true := instr_wf i
  rw [assemble.eq_def, if_pos hwf, encodeBytes, encode_asWritten]
  rfl

theorem asWritten_of_not_shift {i : Instr} (hr : ∀ x k, i ≠ .shr x k)
    (hl : ∀ x k, i ≠ .shl x k) : i.asWritten = i := by
  unfold Instr.asWritten
  split
  · exact absurd rfl (hr _ _)
  · exact absurd rfl (hl _ _)
  · rfl

/-- Settles O6: the line's bytes are those of the instruction as written, for every instruction. -/
theorem assembledLineIsTheEncoding : Obligations.AssembledLineIsTheEncoding := by
  refine ⟨instr_wf, fun i hr hl => ?_,
    fun x k => ⟨assemble_toAsm (.shr x k), assemble_toAsm (.shl x k)⟩⟩
  rw [assemble_toAsm, asWritten_of_not_shift hr hl]

end Sys2Proof
end

section
/-! PROOFS. A STEP at an undefined word (spec/60_exceptions.md R171). -/

namespace Sys2Proof.Machine

/-- Settles O12: the word is what the fetch reads, so STEP stops at the decoder. -/
theorem undefinedOpcodeFaults : Obligations.UndefinedOpcodeFaults := by
  intro s op hrun hpc hop hundef
  have hword : wordOfBytes (s.mem.get s.pc.toNat) (s.mem.get (s.pc.toNat + 1)) = op :=
    BitVec.eq_of_toNat_eq ((wordOfBytes_toNat _ _).trans hop.symm)
  have hfetch : s.fetch = some op := by rw [State.fetch_of_le hpc, hword]
  exact step_of_undefined (Bool.eq_false_iff.2 hrun) hfetch hundef

end Sys2Proof.Machine
end

section
/-! PROOFS. The STEP cycle (spec/40_step_cycle.md R90 to R96): the next instruction runs after the
fetch, a halted machine stays as it is, a fault leaves only its record, and where a completed STEP leaves
`pc`. -/

namespace Sys2Proof.Machine

/-! ## The next instruction (R91, R92) -/

theorem State.valid_eq_false {s : State} (h : ¬ s.Halted) : s.fault.valid = false :=
  Bool.eq_false_iff.2 h

theorem State.nextInstr_eq_some {s : State} {i : Instr} :
    s.nextInstr = some i ↔ ∃ op, s.fetch = some op ∧ decodeWord op = some i :=
  Option.bind_eq_some_iff

theorem step_of_nextInstr {s : State} {i : Instr} (hrun : ¬ s.Halted)
    (hi : s.nextInstr = some i) : step s = exec i (s.setPc (s.pc + 2)) := by
  obtain ⟨op, hfetch, hdecode⟩ := State.nextInstr_eq_some.1 hi
  exact step_of_decoded (State.valid_eq_false hrun) hfetch hdecode

/-- Settles O10: the two bytes at `pc` are the word the fetch reads. -/
theorem stepRunsTheDecodedInstruction : Obligations.StepRunsTheDecodedInstruction := by
  intro s i hrun hpc hdecode
  obtain ⟨hword, -⟩ := decode_eq_ok.1 hdecode
  exact step_of_nextInstr hrun (State.nextInstr_eq_some.2 ⟨_, State.fetch_of_le hpc, hword⟩)

/-- Settles O11: the fetch gives no word. -/
theorem fetchBeyondMemoryFaults : Obligations.FetchBeyondMemoryFaults :=
  fun _ hrun hpc => step_of_fetch_none (State.valid_eq_false hrun) (State.fetch_of_gt hpc)

/-- Settles O19: NOP's word is its encoding, 0, and the other words `0nnn` are those of R76. -/
theorem nopOnlyAdvances : Obligations.NopOnlyAdvances := by
  refine ⟨fun op => ?_, fun op hlt hop => ?_, fun _ => rfl, fun s hrun hfetch => ?_⟩
  · rw [decodeWord_eq_some_iff, eq_comm, ← BitVec.toNat_inj]
    rfl
  · exact (undefinedWordsByMajorNibble op).2 (.inl ⟨Nat.div_eq_of_lt hlt, hop⟩)
  · exact step_of_nextInstr hrun
      (State.nextInstr_eq_some.2 ⟨0, hfetch, decodeWord_encode .nop⟩)

/-! ## A halted machine (R94, R174) -/

theorem timerTick_of_halted {s : State} (h : s.Halted) : timerTick s = (s, false) := if_pos h

theorem loadProgram_of_halted {bytes : List Byte} {s : State} (h : s.Halted) :
    loadProgram bytes s = s := if_pos h

theorem setKey_of_halted {index : Fin 16} {pressed : Bool} {s : State} (h : s.Halted) :
    setKey index pressed s = s := if_pos h

theorem runOp_of_halted {op : HostOp} {s : State} (h : s.Halted) (hop : op ≠ .reset) :
    runOp op s = .next s := by
  cases op with
  | reset => exact absurd rfl hop
  | step => exact step_of_halted h
  | timerTick => rw [runOp, timerTick_of_halted h]
  | loadProgram bytes => rw [runOp, loadProgram_of_halted h]
  | setKey index pressed => rw [runOp, setKey_of_halted h]

theorem runSchedule_of_halted {ops : List HostOp} {s : State} (h : s.Halted)
    (hops : .reset ∉ ops) : runSchedule ops s = .next s := by
  induction ops with
  | nil => rfl
  | cons op ops ih =>
    obtain ⟨hop, hrest⟩ := List.ne_and_not_mem_of_not_mem_cons hops
    exact (runSchedule_cons_of_next (runOp_of_halted h hop.symm) ops).trans (ih hrest)

/-- Settles O13: by induction on the list, each operation but RESET leaving the state as it is. -/
theorem haltIsFinalUntilReset : Obligations.HaltIsFinalUntilReset :=
  fun _ _ h hops => ⟨runSchedule_of_halted h hops, timerTick_of_halted h⟩

/-! ## A faulting STEP (R90, R93) -/

/-- A fault raised after the fetch leaves `pc` at the instruction. -/
theorem raiseFrom_setPc_add_two (s : State) (c : Cause) (i : Instr) :
    (s.setPc (s.pc + 2)).raiseFrom c i = s.takeFault c (encode i) s.pc := by
  simp

theorem InstrRaises.ne_loadCapacity {i : Instr} {s : State} {c : Cause} (hc : InstrRaises i s c) :
    c ≠ .loadCapacity := by
  rintro rfl
  exact hc

/-- What a fault taken at `pc` with the fetched word leaves (R93, R172). -/
theorem onlyTheRecord_of_takeFault {s t : State} {c : Cause} {op : Word}
    (ht : t = s.takeFault c op s.pc) (hop : s.fetch.getD 0 = op) (hnone : c ≠ .none)
    (hload : c ≠ .loadCapacity) :
    t = s.setFault t.fault ∧ t.fault.addr = s.pc ∧ t.fault.opcode = s.fetch.getD 0 ∧
      t.fault.cause ≠ .none ∧ t.fault.cause ≠ .loadCapacity := by
  subst ht
  exact ⟨rfl, rfl, hop.symm, hnone, hload⟩

/-- Settles O14: by what a STEP can do; an instruction halts a running machine only by raising. -/
theorem faultingStepChangesOnlyTheRecord : Obligations.FaultingStepChangesOnlyTheRecord := by
  intro s t hrun h ht
  obtain ⟨hv, -⟩ | ⟨-, hfetch, heq⟩ | ⟨op, -, hfetch, -, heq⟩ |
    ⟨op, i, -, hfetch, hdecode, heq⟩ := step_cases s
  · exact absurd hv hrun
  · cases heq.symm.trans h
    exact onlyTheRecord_of_takeFault rfl (by rw [hfetch]; rfl) (by decide) (by decide)
  · cases heq.symm.trans h
    exact onlyTheRecord_of_takeFault rfl (by rw [hfetch]; rfl) (by decide) (by decide)
  · obtain ⟨hfault, -⟩ | ⟨c, hc, rfl⟩ := exec_ok_or_raises i _ t (heq.symm.trans h)
    · rw [State.Halted, hfault] at ht
      exact absurd ht hrun
    · have hword : s.fetch.getD 0 = encode i := by
        rw [hfetch, encode_of_decodeWord hdecode]
        rfl
      exact onlyTheRecord_of_takeFault (raiseFrom_setPc_add_two s c i) hword hc.ne_none
        hc.ne_loadCapacity

/-! ## Where a completed STEP leaves `pc` (R96) -/

theorem toList_getD_eq_getElem {α : Type} {n k : Nat} (v : Vector α n) (d : α) (h : k < n) :
    v.toList.getD k d = v[k] := by
  simp [h]

theorem pcAfter_of_not_movesPc {i : Instr} {s : State} (hi : ¬ MovesPc i) :
    pcAfter i s = s.pc.toNat + 2 := by
  cases i with
  | ret | jp | call | jpV0 | ldK => exact absurd trivial hi
  | seImm | sneImm | seReg | sneReg | skp | sknp => exact absurd trivial hi
  | _ => rfl

section
variable {s t : State}

theorem pc_add_two_toNat (hpc : s.pc.toNat ≤ 4094) : (s.pc + 2).toNat = s.pc.toNat + 2 := by
  bv_omega

theorem pc_add_four_toNat (hpc : s.pc.toNat ≤ 4094) : (s.pc + 2 + 2).toNat = s.pc.toNat + 4 := by
  bv_omega

/-- An instruction that does not move `pc` leaves it where the fetch did. -/
theorem pc_of_exec_of_not_movesPc {i : Instr} (hi : ¬ MovesPc i) (h : exec i s = .next t)
    (hrun : ¬ t.Halted) : t.pc = s.pc := by
  obtain ⟨-, hpc, -⟩ := onlyNamedInstructionsWrite i s t h
  by_contra hne
  obtain hmoves | ⟨c, rfl⟩ := hpc hne
  · exact hi hmoves
  · exact hrun rfl

theorem pc_of_execRet (h : execRet s = .next t) (hrun : ¬ t.Halted) :
    t.pc = s.stack.toList.getD (s.sp.val - 1) 0 := by
  by_cases h0 : s.sp = 0
  · rw [execRet, State.pop_of_empty h0] at h
    cases h
    exact absurd rfl hrun
  · have hpos : 0 < s.sp.val := Nat.pos_of_ne_zero fun hv => h0 (Fin.ext hv)
    rw [execRet, State.pop_of_pos hpos] at h
    cases h
    exact (toList_getD_eq_getElem s.stack 0 (by omega)).symm

theorem pc_of_execCall {nnn : Addr12} (h : execCall nnn s = .next t) (hrun : ¬ t.Halted) :
    t.pc = zextAddr nnn := by
  cases hp : s.push s.pc with
  | some u =>
    rw [execCall, hp] at h
    cases h
    rfl
  | none =>
    rw [execCall, hp] at h
    cases h
    exact absurd rfl hrun

/-- JP_V0's target fits 16 bits (R105). -/
theorem jumpTarget_toNat (nnn : Addr12) (b : Byte) :
    (zextAddr nnn + zextByte b).toNat = nnn.toNat + b.toNat := by
  have ha := nnn.isLt
  have hb := b.isLt
  rw [BitVec.toNat_add, zextAddr_toNat, zextByte_toNat]
  omega

/-- A skip after the fetch: `a + 4` when taken, `a + 2` when not. -/
theorem pc_of_skipIf (hpc : s.pc.toNat ≤ 4094) {c : Bool}
    (h : skipIf c (s.setPc (s.pc + 2)) = .next t) :
    t.pc.toNat = if c then s.pc.toNat + 4 else s.pc.toNat + 2 := by
  rw [skipIf_eq] at h
  cases h
  cases c with
  | true => exact pc_add_four_toNat hpc
  | false => exact pc_add_two_toNat hpc

theorem pc_of_skipIfKey (hpc : s.pc.toNat ≤ 4094) {down : Bool} {x : Reg} {i : Instr}
    (h : skipIfKey down x i (s.setPc (s.pc + 2)) = .next t) (hrun : ¬ t.Halted) :
    t.pc.toNat = if s.key.toList.getD (s.getV x).toNat false = down then s.pc.toNat + 4
      else s.pc.toNat + 2 := by
  unfold skipIfKey at h
  rw [State.setPc_getV, State.setPc_key] at h
  cases hk : keyIndex (s.getV x) with
  | some k =>
    rw [hk] at h
    have hkey : s.key.toList.getD (s.getV x).toNat false = s.key.get k := by
      rw [keyIndex_eq_some.1 hk]
      exact toList_getD_eq_getElem s.key false k.isLt
    rw [pc_of_skipIf hpc h, hkey]
    simp only [beq_iff_eq]
  | none =>
    rw [hk] at h
    cases h
    exact absurd rfl hrun

theorem pc_of_execLdK (hpc : s.pc.toNat ≤ 4094) {x : Reg}
    (h : execLdK x (s.setPc (s.pc + 2)) = .next t) : t.pc.toNat = pcAfter (.ldK x) s := by
  unfold execLdK at h
  rw [State.setPc_key] at h
  simp only [pcAfter, ← heldKey_eq_none]
  cases hk : heldKey s.key with
  | some k =>
    rw [hk] at h
    cases h
    exact pc_add_two_toNat hpc
  | none =>
    rw [hk] at h
    cases h
    simp

/-- The instructions that move `pc` by their own rules, every other by its effect. -/
theorem pc_of_exec {i : Instr} (hpc : s.pc.toNat ≤ 4094)
    (h : exec i (s.setPc (s.pc + 2)) = .next t) (hrun : ¬ t.Halted) :
    t.pc.toNat = pcAfter i s := by
  by_cases hi : MovesPc i
  · cases i with
    | ret => rw [pc_of_execRet h hrun]; rfl
    | jp nnn => cases h; exact zextAddr_toNat nnn
    | call nnn => rw [pc_of_execCall h hrun]; exact zextAddr_toNat nnn
    | jpV0 nnn =>
      cases h
      exact jumpTarget_toNat nnn (s.getV 0)
    | seImm x kk | sneImm x kk | seReg x y | sneReg x y =>
      simpa [pcAfter] using pc_of_skipIf hpc h
    | skp x | sknp x => exact pc_of_skipIfKey hpc h hrun
    | ldK x => exact pc_of_execLdK hpc h
    | _ => exact hi.elim
  · rw [pcAfter_of_not_movesPc hi, pc_of_exec_of_not_movesPc hi h hrun]
    exact pc_add_two_toNat hpc

end

/-- Settles O16: the fetched address lies below 4095, so the fetch's advance does not wrap. -/
theorem completedStepMovesPc : Obligations.CompletedStepMovesPc := by
  intro s t i hrun hi h hrun'
  obtain ⟨op, hfetch, -⟩ := State.nextInstr_eq_some.1 hi
  rw [step_of_nextInstr hrun hi] at h
  exact pc_of_exec (State.pc_of_fetch hfetch) h hrun'

end Sys2Proof.Machine
end

section
/-! PROOFS. The control transfers (spec/41_control_flow.md R100 to R105): their words, JP and JP_V0,
and CALL and RET on the stack they share. -/

namespace Sys2Proof

/-! ## The one word of an instruction, as a number (R75) -/

theorem decodeWord_eq_some_iff_toNat {op : Word} {i : Instr} :
    decodeWord op = some i ↔ op.toNat = (encode i).toNat := by
  rw [decodeWord_eq_some_iff, eq_comm, BitVec.toNat_inj]

/-- Format NNN. -/
theorem decodeWord_eq_some_iff_of_wordNNN {op : Word} {i : Instr} {n1 : BitVec 4} {nnn : Addr12}
    (hi : encode i = wordNNN n1 nnn) :
    decodeWord op = some i ↔ op.toNat = n1.toNat * 4096 + nnn.toNat := by
  rw [decodeWord_eq_some_iff_toNat, hi, wordNNN_toNat]

end Sys2Proof

namespace Sys2Proof.Machine

/-! ## Jumps (R103, R105) -/

theorem State.setPc_of_pc_eq {s : State} {w : Word} (h : s.pc = w) : s.setPc w = s := h ▸ rfl

theorem exists_step_fetchOob {s : State} (hrun : ¬ s.Halted) (hpc : 4094 < s.pc.toNat) :
    ∃ u, step s = .next u ∧ u.Halted ∧ u.fault.cause = .fetchOob :=
  ⟨_, fetchBeyondMemoryFaults s hrun (Nat.succ_lt_succ hpc), rfl, rfl⟩

/-- Settles O20: a jump overwrites the fetch's advance, so a jump to its own address undoes it. -/
theorem jumpSetsPc : Obligations.JumpSetsPc := by
  refine ⟨fun _ _ => decodeWord_eq_some_iff_of_wordNNN (n1 := 0x1) rfl,
    fun s nnn => ⟨_, rfl, zextAddr_toNat nnn, rfl⟩, fun s nnn hrun hi hpc => ?_,
    fun s t hrun h => ?_⟩
  · have hself : s.pc = zextAddr nnn :=
      BitVec.eq_of_toNat_eq (hpc.trans (zextAddr_toNat nnn).symm)
    rw [step_of_nextInstr hrun hi]
    exact congrArg Host.Outcome.next (State.setPc_of_pc_eq hself)
  · cases h
    have hbeyond : 4094 < (zextAddr 0xFFF).toNat := by decide
    exact exists_step_fetchOob hrun hbeyond

/-- Settles O21: the sum of the address and V0 fits the 16 bits of `pc`. -/
theorem jumpOffsetAddsV0 : Obligations.JumpOffsetAddsV0 := by
  refine ⟨fun _ _ => decodeWord_eq_some_iff_of_wordNNN (n1 := 0xB) rfl, fun s nnn => ?_⟩
  have htarget := jumpTarget_toNat nnn (s.getV 0)
  exact ⟨_, rfl, htarget, rfl,
    fun hrun hbeyond => exists_step_fetchOob hrun (hbeyond.trans_eq htarget.symm)⟩

/-! ## CALL and RET (R100 to R102, R104) -/

theorem execCall_of_lt {s : State} (h : s.sp.val < 16) (nnn : Addr12) :
    execCall nnn s = .next ((s.setStack (s.stack.set s.sp.val s.pc h)
      ⟨s.sp.val + 1, Nat.succ_lt_succ h⟩).setPc (zextAddr nnn)) := by
  rw [execCall, State.push_of_lt h]

theorem execCall_of_full {s : State} (h : s.sp.val = 16) (nnn : Addr12) :
    execCall nnn s = .next (s.raiseFrom .stackOverflow (.call nnn)) := by
  rw [execCall, State.push_of_full (Fin.ext h), raise_eq]

theorem execRet_of_pos {s : State} (h : 0 < s.sp.val) :
    execRet s = .next ((s.setStack s.stack ⟨s.sp.val - 1, by omega⟩).setPc
      (s.stack[s.sp.val - 1]'(by omega))) := by
  rw [execRet, State.pop_of_pos h]

theorem execRet_of_empty {s : State} (h : s.sp.val = 0) :
    execRet s = .next (s.raiseFrom .stackUnderflow .ret) := by
  rw [execRet, State.pop_of_empty (Fin.ext h), raise_eq]

/-- Writing one slot leaves every other slot as it was (R26). -/
theorem stack_get_set {stack : Vector Word 16} {n : Nat} (hn : n < 16) (w : Word) (k : Fin 16) :
    (stack.set n w hn).get k = if k.val = n then w else stack.get k := by
  rw [Vector.get_eq_getElem, Vector.get_eq_getElem, Vector.getElem_set]
  simp only [eq_comm]

/-- Settles O22: with room on the stack, and on a full one. -/
theorem callPushesAndJumps : Obligations.CallPushesAndJumps :=
  ⟨fun _ _ => decodeWord_eq_some_iff_of_wordNNN (n1 := 0x2) rfl,
    fun s nnn hroom => ⟨_, execCall_of_lt hroom nnn, zextAddr_toNat nnn, rfl,
      stack_get_set hroom s.pc, rfl⟩,
    fun _ nnn hfull => ⟨_, execCall_of_full hfull nnn, rfl⟩⟩

/-- Settles O23: with an entry on the stack, and on an empty one. -/
theorem returnPops : Obligations.ReturnPops := by
  refine ⟨fun _ => decodeWord_eq_some_iff_toNat,
    fun s hentry => ⟨_, execRet_of_pos hentry, Nat.sub_add_cancel hentry, fun k hk => ?_, rfl⟩,
    fun _ hempty => ⟨_, execRet_of_empty hempty, rfl⟩⟩
  rw [Vector.get_eq_getElem]
  exact (getElem_congr_idx hk).symm

/-- Settles O24: the slot below the new `SP` holds what the CALL pushed. -/
theorem callThenReturnComesBack : Obligations.CallThenReturnComesBack := by
  intro s t u nnn hroom hcall hstack hsp
  cases (execCall_of_lt hroom nnn).symm.trans hcall
  have hdepth : u.sp.val = s.sp.val + 1 := congrArg Fin.val hsp
  refine ⟨_, execRet_of_pos (by omega), ?_, ?_⟩
  · simp [hdepth, hstack]
  · simp [hdepth]

end Sys2Proof.Machine
end

section
/-! PROOFS. The skips on register values (spec/42_skips.md R110 to R114): their words, and one rule for
the skip they share. -/

namespace Sys2Proof

/-! ## The words of the formats with registers, as numbers (R75) -/

/-- Format XKK. -/
theorem decodeWord_eq_some_iff_of_wordXKK {op : Word} {i : Instr} {n1 : BitVec 4} {x : Reg}
    {kk : Byte} (hi : encode i = wordXKK n1 x kk) :
    decodeWord op = some i ↔ op.toNat = n1.toNat * 4096 + x.val * 256 + kk.toNat := by
  rw [decodeWord_eq_some_iff_toNat, hi, wordXKK_toNat]

/-- Formats XY and XYN. -/
theorem decodeWord_eq_some_iff_of_wordXYN {op : Word} {i : Instr} {n1 : BitVec 4} {x y : Reg}
    {n : Fin 16} (hi : encode i = wordXYN n1 x y n) :
    decodeWord op = some i ↔
      op.toNat = n1.toNat * 4096 + x.val * 256 + y.val * 16 + n.val := by
  rw [decodeWord_eq_some_iff_toNat, hi, wordXYN_toNat]

end Sys2Proof

namespace Sys2Proof.Machine

/-- In the execute phase at address `a` a skip on the condition `p` leaves `pc` at `a + 4` where `p`
holds and at `a + 2` where not, and all else as it was (R114). -/
theorem exists_skipIf_eq_next {s : State} {a : Word} {c : Bool} {p : Prop} [Decidable p]
    (hpc : s.pc = a + 2) (hc : c = true ↔ p) :
    ∃ t, skipIf c s = .next t ∧ OnlyPc s t ∧ t.pc = if p then a + 4 else a + 2 := by
  have hskip : s.pc + 2 = a + 4 := by rw [hpc, BitVec.add_assoc]; rfl
  refine ⟨_, skipIf_eq c s, rfl, ?_⟩
  rw [State.setPc_pc, hskip, hpc]
  exact if_congr hc rfl rfl

/-- The meanings compare bytes by the Boolean tests, the statement by their values (R110 to R113). -/
theorem beq_eq_true_iff_toNat {b c : Byte} : (b == c) = true ↔ b.toNat = c.toNat :=
  beq_iff_eq.trans BitVec.toNat_inj.symm

theorem bne_eq_true_iff_toNat {b c : Byte} : (b != c) = true ↔ b.toNat ≠ c.toNat :=
  bne_iff_ne.trans BitVec.toNat_inj.symm.not

/-- Settles O25: the words by their formats, the undefined ones by R76, and each meaning as a skip. -/
theorem skipsCompareWholeRegisters : Obligations.SkipsCompareWholeRegisters := by
  refine ⟨fun _ _ _ => ⟨?_, ?_⟩, fun _ _ _ => ⟨?_, ?_⟩, fun op hmajor hn => ?_,
    fun s a x y kk hpc => ⟨?_, ?_, ?_, ?_⟩⟩
  · exact decodeWord_eq_some_iff_of_wordXKK (n1 := 0x3) rfl
  · exact decodeWord_eq_some_iff_of_wordXKK (n1 := 0x4) rfl
  · exact decodeWord_eq_some_iff_of_wordXYN (n1 := 0x5) (n := 0) rfl
  · exact decodeWord_eq_some_iff_of_wordXYN (n1 := 0x9) (n := 0) rfl
  · exact (undefinedWordsByMajorNibble op).2 (.inr (.inl ⟨hmajor, hn⟩))
  · exact exists_skipIf_eq_next hpc beq_eq_true_iff_toNat
  · exact exists_skipIf_eq_next hpc bne_eq_true_iff_toNat
  · exact exists_skipIf_eq_next hpc beq_eq_true_iff_toNat
  · exact exists_skipIf_eq_next hpc bne_eq_true_iff_toNat

end Sys2Proof.Machine
end

section
/-! PROOFS. Register loads, arithmetic, logic, shifts and random (spec/43_alu.md R120 to R133): one rule
for each order of the two writes of R133, and the statements read off them. -/

namespace Sys2Proof

/-- The row of major nibble 8: the nibble `n` names the operation (R75). -/
theorem decodeWord_eq_some_iff_of_word8XYN {op : Word} {i : Instr} {x y : Reg} {n : Fin 16}
    (hi : encode i = wordXYN 0x8 x y n) :
    decodeWord op = some i ↔ op.toNat = 0x8000 + n.val + x.val * 256 + y.val * 16 := by
  have hmajor : (0x8 : BitVec 4).toNat = 8 := rfl
  rw [decodeWord_eq_some_iff_of_wordXYN hi, hmajor]
  omega

end Sys2Proof

namespace Sys2Proof.Machine

/-! ## Reads after the writes of one or two registers (R12, R21, R133) -/

theorem State.getV_setV_self (s : State) (x : Reg) (b : Byte) : (s.setV x b).getV x = b :=
  (s.getV_setV x x b).trans (if_pos rfl)

theorem State.getV_setV_of_ne (s : State) {x k : Reg} (b : Byte) (h : k ≠ x) :
    (s.setV x b).getV k = s.getV k :=
  (s.getV_setV x k b).trans (if_neg h)

theorem OnlyRegs.swap {x y : Reg} {s t : State} (h : OnlyRegs [x, y] s t) :
    OnlyRegs [y, x] s t :=
  ⟨h.1, fun k hk => h.2 k fun hmem => hk ((List.Perm.swap y x []).mem_iff.1 hmem)⟩

/-- ADD_REG, SUB and SUBN: the flag is written last, so it wins at x = F (decision D2, log 5). -/
theorem exists_resultThenFlag_eq_next (x : Reg) (result f : Byte) (s : State) :
    ∃ t, resultThenFlag x result f s = .next t ∧ t.getV regF = f ∧
      (x ≠ regF → t.getV x = result) ∧ OnlyRegs [x, regF] s t :=
  ⟨_, rfl, State.getV_setV_self _ _ _,
    fun hx => (State.getV_setV_of_ne _ _ hx).trans (State.getV_setV_self _ _ _),
    onlyRegs_setV_setV s x regF result f⟩

/-- SHR and SHL: the shift is written last and reads Vx again, so at x = F it shifts the flag
(decision D2, log 5). -/
theorem exists_flagThenShift_eq_next (x : Reg) (f : Byte) (op : Byte → Byte) (s : State) :
    ∃ t, flagThenShift x f op s = .next t ∧ OnlyRegs [x, regF] s t ∧
      (x ≠ regF → t.getV regF = f ∧ t.getV x = op (s.getV x)) ∧
      (x = regF → t.getV regF = op f) := by
  refine ⟨_, rfl, (onlyRegs_setV_setV s regF x f _).swap, fun hx => ⟨?_, ?_⟩, ?_⟩
  · exact (State.getV_setV_of_ne _ _ hx.symm).trans (State.getV_setV_self _ _ _)
  · rw [State.getV_setV_self, State.getV_setV_of_ne _ _ hx]
  · rintro rfl
    rw [State.getV_setV_self, State.getV_setV_self]

/-! ## Byte arithmetic, as numbers (R120) -/

/-- A sum of bytes is split into its low byte and its carry (R127). -/
theorem add_toNat_add_carryFlag (a b : Byte) :
    (a + b).toNat + 256 * (carryFlag a b).toNat = a.toNat + b.toNat := by
  rw [carryFlag_toNat, BitVec.toNat_add]
  split <;> omega

theorem sub_toNat_eq_emod (a b : Byte) :
    ((a - b).toNat : Int) = (a.toNat - b.toNat : Int) % 256 := by
  rw [BitVec.toNat_sub]
  omega

theorem ushiftRight_one_toNat (b : Byte) : (b >>> 1).toNat = b.toNat / 2 := by
  rw [BitVec.toNat_ushiftRight, Nat.shiftRight_eq_div_pow, Nat.pow_one]

theorem shiftLeft_one_toNat (b : Byte) : (b <<< 1).toNat = b.toNat * 2 % 256 := by
  rw [BitVec.toNat_shiftLeft, Nat.shiftLeft_eq, Nat.pow_one]

/-- The flag of SHR is shifted out again at x = F (R129). -/
theorem lowBitFlag_ushiftRight_one_toNat (a : Byte) : (lowBitFlag a >>> 1).toNat = 0 := by
  rw [ushiftRight_one_toNat, lowBitFlag_toNat]
  omega

/-- The flag of SHL is doubled at x = F (R131). -/
theorem highBitFlag_shiftLeft_one_toNat (a : Byte) :
    (highBitFlag a <<< 1).toNat = if 0x80 ≤ a.toNat then 2 else 0 := by
  rw [shiftLeft_one_toNat, highBitFlag_toNat]
  split <;> omega

/-- SUB and SUBN are one subtraction, with the operands in either order (R128, R130). -/
theorem exists_subtract_eq_next (x : Reg) (a b : Byte) (s : State) :
    ∃ t, resultThenFlag x (a - b) (noBorrowFlag a b) s = .next t ∧
      (t.getV regF).toNat = (if a.toNat < b.toNat then 0 else 1) ∧
      (x ≠ regF → ((t.getV x).toNat : Int) = (a.toNat - b.toNat : Int) % 256) ∧
      OnlyRegs [x, regF] s t := by
  obtain ⟨t, ht, hflag, hresult, honly⟩ :=
    exists_resultThenFlag_eq_next x (a - b) (noBorrowFlag a b) s
  refine ⟨t, ht, ?_, fun hx => ?_, honly⟩
  · rw [hflag, noBorrowFlag_toNat]
  · rw [hresult hx, sub_toNat_eq_emod]

/-! ## The statements -/

/-- Settles O26: the words by their formats, and each meaning as the write of one register. -/
theorem loadsAndImmediateAdd : Obligations.LoadsAndImmediateAdd := by
  refine ⟨fun _ _ _ => ⟨?_, ?_⟩, fun _ _ _ => ?_, fun s x y kk => ⟨?_, ?_, ?_⟩⟩
  · exact decodeWord_eq_some_iff_of_wordXKK (n1 := 0x6) rfl
  · exact decodeWord_eq_some_iff_of_wordXKK (n1 := 0x7) rfl
  · exact decodeWord_eq_some_iff_of_word8XYN (n := 0) rfl
  · exact ⟨_, rfl, s.getV_setV_self x _, onlyRegs_setV s x _⟩
  · refine ⟨_, rfl, ?_, onlyRegs_setV s x _⟩
    rw [State.getV_setV_self, BitVec.toNat_add]
  · exact ⟨_, rfl, s.getV_setV_self x _, onlyRegs_setV s x _⟩

/-- Settles O27: the words by their formats, and each meaning as the write of one register. -/
theorem logicIsBitwiseWithoutFlag : Obligations.LogicIsBitwiseWithoutFlag := by
  refine ⟨fun _ _ _ => ⟨?_, ?_, ?_⟩, fun s x y => ⟨?_, ?_, ?_⟩⟩
  · exact decodeWord_eq_some_iff_of_word8XYN (n := 1) rfl
  · exact decodeWord_eq_some_iff_of_word8XYN (n := 2) rfl
  · exact decodeWord_eq_some_iff_of_word8XYN (n := 3) rfl
  · refine ⟨_, rfl, onlyRegs_setV s x _, fun b _ => ?_⟩
    rw [State.getV_setV_self, BitVec.getLsbD_or]
  · refine ⟨_, rfl, onlyRegs_setV s x _, fun b _ => ?_⟩
    rw [State.getV_setV_self, BitVec.getLsbD_and]
  · refine ⟨_, rfl, onlyRegs_setV s x _, fun b _ => ?_⟩
    rw [State.getV_setV_self, BitVec.getLsbD_xor]

/-- Settles O28: the low byte and the carry make up the sum, and the carry is written last. -/
theorem addSplitsTheTrueSum : Obligations.AddSplitsTheTrueSum := by
  refine ⟨fun _ _ _ => decodeWord_eq_some_iff_of_word8XYN (n := 4) rfl,
    fun s x y => ?_⟩
  obtain ⟨t, ht, hcarry, hsum, honly⟩ := exists_resultThenFlag_eq_next x
    (s.getV x + s.getV y) (carryFlag (s.getV x) (s.getV y)) s
  refine ⟨t, ht, ?_, fun hx => ?_, honly⟩
  · rw [hcarry, carryFlag_toNat]
  · rw [hsum hx, hcarry, add_toNat_add_carryFlag]

/-- Settles O29: one subtraction, with the operands in both orders. -/
theorem subtractWrapsAndFlagsNoBorrow : Obligations.SubtractWrapsAndFlagsNoBorrow := by
  refine ⟨fun _ _ _ => ⟨?_, ?_⟩, fun s x y => ⟨?_, ?_⟩⟩
  · exact decodeWord_eq_some_iff_of_word8XYN (n := 5) rfl
  · exact decodeWord_eq_some_iff_of_word8XYN (n := 7) rfl
  · exact exists_subtract_eq_next x (s.getV x) (s.getV y) s
  · exact exists_subtract_eq_next x (s.getV y) (s.getV x) s

/-- Settles O30: the shift reads Vx after the flag is written; the meanings have no nibble n3. -/
theorem shiftsInPlace : Obligations.ShiftsInPlace := by
  refine ⟨fun _ _ _ => ⟨?_, ?_⟩, fun s x => ⟨?_, ?_⟩⟩
  · exact decodeWord_eq_some_iff_of_word8XYN (n := 0x6) rfl
  · exact decodeWord_eq_some_iff_of_word8XYN (n := 0xE) rfl
  · obtain ⟨t, ht, honly, hother, hself⟩ :=
      exists_flagThenShift_eq_next x (lowBitFlag (s.getV x)) (· >>> 1) s
    refine ⟨t, fun _ => ht, honly, fun hx => ?_, fun hx => ?_⟩
    · obtain ⟨hflag, hshift⟩ := hother hx
      rw [hflag, hshift, lowBitFlag_toNat, ushiftRight_one_toNat]
      exact ⟨rfl, rfl⟩
    · rw [hself hx, lowBitFlag_ushiftRight_one_toNat]
  · obtain ⟨t, ht, honly, hother, hself⟩ :=
      exists_flagThenShift_eq_next x (highBitFlag (s.getV x)) (· <<< 1) s
    refine ⟨t, fun _ => ht, honly, fun hx => ?_, fun hx => ?_⟩
    · obtain ⟨hflag, hshift⟩ := hother hx
      rw [hflag, hshift, highBitFlag_toNat, shiftLeft_one_toNat]
      exact ⟨rfl, rfl⟩
    · rw [hself hx, highBitFlag_shiftLeft_one_toNat, hx]

/-- Settles O31: the sequence of draws is the model's own, read at the count of draws. -/
theorem randomMasksOneDraw : Obligations.RandomMasksOneDraw := by
  refine ⟨fun _ _ _ => decodeWord_eq_some_iff_of_wordXKK (n1 := 0xC) rfl,
    ⟨Config.randByte, fun s x kk => ?_⟩, fun _ _ x s => s.getV_setV_self x _⟩
  have hdraw : (rndWith (Config.randByte s.draws) x kk s.countDraw).getV x =
      Config.randByte s.draws &&& kk := s.countDraw.getV_setV_self x _
  refine ⟨_, rfl, hdraw, ?_, rfl, onlyRegs_setV s.countDraw x _⟩
  rw [hdraw, BitVec.and_assoc, BitVec.and_not_self]
  exact BitVec.and_zero

end Sys2Proof.Machine
end

section
/-! PROOFS. The index register and the memory instructions (spec/44_index_memory.md R140 to R145):
the words of major nibble F, one rule for a store and one for a load that fits, and the fault of
one that does not (R59). -/

namespace Sys2Proof

/-- The row of major nibble F: the byte `kk` names the operation (R75). -/
theorem decodeWord_eq_some_iff_of_wordFXKK {op : Word} {i : Instr} {x : Reg} {kk : Byte}
    (hi : encode i = wordXKK 0xF x kk) :
    decodeWord op = some i ↔ op.toNat = 0xF000 + kk.toNat + x.val * 256 := by
  have hmajor : (0xF : BitVec 4).toNat = 15 := rfl
  rw [decodeWord_eq_some_iff_of_wordXKK hi, hmajor]
  omega

end Sys2Proof

namespace Sys2Proof.Machine

/-! ## Stores and loads from `I` (R54, R56, R59) -/

/-- A store that fits puts its bytes from `I` upward and leaves all else. -/
theorem exists_storeAtI_eq_next_of_le {bytes : List Byte} {s : State}
    (hfit : s.i.toNat + bytes.length ≤ 4096) (i : Instr) :
    ∃ t, storeAtI bytes i s = .next t ∧
      (∀ k, k < bytes.length → t.mem.get (s.i.toNat + k) = bytes.getD k 0) ∧
      (∀ a, a < s.i.toNat ∨ s.i.toNat + bytes.length ≤ a → t.mem.get a = s.mem.get a) ∧
      t = s.setMem t.mem := by
  obtain ⟨-, h⟩ | ⟨-, hgt, -⟩ := storeAtI_cases bytes i s
  · refine ⟨_, h, fun k hk => mem_get_of_storeAtI hfit h hk, fun a ha => ?_, rfl⟩
    rw [State.setMem_mem, Memory.get_setBytes, if_neg (by omega)]
  · omega

/-- A store that does not fit writes no byte. -/
theorem exists_storeAtI_takesFault {bytes : List Byte} {s : State}
    (hne : bytes.length ≠ 0) (hgt : 4096 < s.i.toNat + bytes.length) (i : Instr) :
    ∃ t, storeAtI bytes i s = .next t ∧ TakesFault .memOob i s t := by
  obtain ⟨hfit, -⟩ | ⟨-, -, h⟩ := storeAtI_cases bytes i s
  · omega
  · exact ⟨_, h, s.raiseFrom_eq .memOob i⟩

section
variable {s : State} {x : Reg}

/-- ST_REGS within memory (R144). -/
theorem exists_execStRegs_eq_next_of_le (hfit : s.i.toNat + x.val ≤ 4095) :
    ∃ t, execStRegs x s = .next t ∧
      (∀ k : Reg, k ≤ x → t.mem.get (s.i.toNat + k.val) = s.getV k) ∧
      (∀ a, a < s.i.toNat ∨ s.i.toNat + x.val < a → t.mem.get a = s.mem.get a) ∧
      t = s.setMem t.mem := by
  have hlen := regsUpTo_length s.v x
  obtain ⟨t, ht, hbytes, hother, hframe⟩ :=
    exists_storeAtI_eq_next_of_le (s := s) (bytes := regsUpTo s.v x) (by omega) (.stRegs x)
  refine ⟨t, ht, fun k hk => ?_, fun a ha => hother a (by omega), hframe⟩
  have hk' : k.val ≤ x.val := hk
  exact (hbytes k.val (by omega)).trans (regsUpTo_getD s.v x k hk)

/-- LD_REGS within memory (R145). -/
theorem exists_execLdRegs_eq_next_of_le (hfit : s.i.toNat + x.val ≤ 4095) :
    ∃ t, execLdRegs x s = .next t ∧
      (∀ k : Reg, k ≤ x → t.getV k = s.mem.get (s.i.toNat + k.val)) ∧
      (∀ k : Reg, x < k → t.getV k = s.getV k) ∧ t = s.setVs t.v := by
  obtain ⟨-, h⟩ | ⟨hgt, -⟩ := execLdRegs_cases x s
  · have hlen := Memory.getBytes_length s.mem s.i.toNat (x.val + 1)
    refine ⟨_, h, fun k hk => ?_, fun k hk => ?_, rfl⟩
    · have hk' : k.val ≤ x.val := hk
      rw [State.setVs_getV, loadRegsFrom_get, if_pos (by omega), Nat.sub_zero,
        Memory.getBytes_getD _ _ _ _ (by omega)]
    · have hk' : x.val < k.val := hk
      rw [State.setVs_getV, loadRegsFrom_get, if_neg (by omega)]
      rfl
  · omega

end

/-! ## The statements -/

/-- Settles O33: the words by their formats, and each meaning as the write of `I`. -/
theorem indexWrites : Obligations.IndexWrites := by
  refine ⟨fun _ _ => ?_, fun _ _ => ⟨?_, ?_⟩, fun s nnn x => ⟨?_, ?_, ?_⟩⟩
  · exact decodeWord_eq_some_iff_of_wordNNN (n1 := 0xA) rfl
  · exact decodeWord_eq_some_iff_of_wordFXKK (kk := 0x1E) rfl
  · exact decodeWord_eq_some_iff_of_wordFXKK (kk := 0x29) rfl
  · exact ⟨_, rfl, zextAddr_toNat nnn, rfl⟩
  · refine ⟨_, rfl, ?_, rfl⟩
    rw [State.setI_i, BitVec.toNat_add, zextByte_toNat]
  · exact ⟨_, rfl, glyphAddr_toNat (s.getV x), rfl⟩

/-- Settles O34: a store of three bytes, the decimal digits of Vx. -/
theorem decimalStoreWritesThreeDigits : Obligations.DecimalStoreWritesThreeDigits := by
  refine ⟨fun _ _ => decodeWord_eq_some_iff_of_wordFXKK (kk := 0x33) rfl,
    fun s x hfit => ?_, fun s x hgt => ?_⟩
  · have hlen := bcdDigits_length (s.getV x)
    obtain ⟨t, ht, hbytes, hother, hframe⟩ :=
      exists_storeAtI_eq_next_of_le (s := s) (bytes := bcdDigits (s.getV x)) (by omega) (.ldB x)
    obtain ⟨hundreds, tens, ones⟩ := bcdDigits_toNat (s.getV x)
    rw [← hbytes 0 (by omega), Nat.add_zero] at hundreds
    rw [← hbytes 1 (by omega)] at tens
    rw [← hbytes 2 (by omega)] at ones
    exact ⟨t, ht, hundreds, tens, ones, by omega, fun a ha => hother a (by omega), hframe⟩
  · exact exists_storeAtI_takesFault (bytes := bcdDigits (s.getV x)) (Nat.succ_ne_zero 2)
      (Nat.succ_lt_succ hgt) (.ldB x)

/-- Settles O35: a store of the bytes V0 to Vx. -/
theorem registerStoreWritesUpToVx : Obligations.RegisterStoreWritesUpToVx := by
  refine ⟨fun _ _ => decodeWord_eq_some_iff_of_wordFXKK (kk := 0x55) rfl,
    fun _ _ => exists_execStRegs_eq_next_of_le, fun s x hgt => ?_⟩
  have hlen := regsUpTo_length s.v x
  exact exists_storeAtI_takesFault (bytes := regsUpTo s.v x) (by omega) (by omega) (.stRegs x)

/-- Settles O36: a load of the bytes from `I` upward into V0 to Vx. -/
theorem registerLoadReadsUpToVx : Obligations.RegisterLoadReadsUpToVx := by
  refine ⟨fun _ _ => decodeWord_eq_some_iff_of_wordFXKK (kk := 0x65) rfl,
    fun _ _ => exists_execLdRegs_eq_next_of_le, fun s x hgt => ?_⟩
  obtain ⟨hfit, -⟩ | ⟨-, h⟩ := execLdRegs_cases x s
  · omega
  · exact ⟨_, h, s.raiseFrom_eq .memOob (.ldRegs x)⟩

/-- Settles O37: the load reads the bytes the store wrote, through the same `I`. -/
theorem storedRegistersLoadBack : Obligations.StoredRegistersLoadBack := by
  intro s t u x hfit hstore hmem hi
  obtain ⟨t', ht', hstored, -, hframe⟩ := exists_execStRegs_eq_next_of_le hfit
  cases ht'.symm.trans hstore
  have hbase : u.i = s.i := by rw [hi, hframe, State.setMem_i]
  have hfit' : u.i.toNat + x.val ≤ 4095 := hbase ▸ hfit
  obtain ⟨w, hw, hloaded, -, -⟩ := exists_execLdRegs_eq_next_of_le hfit'
  refine ⟨w, hw, fun k hk => ?_⟩
  rw [hloaded k hk, hmem, hbase, hstored k hk]

end Sys2Proof.Machine
end

section
/-! PROOFS. The framebuffer instructions (spec/45_display.md R150 to R153): CLS, DRW once and twice
at one origin, and that no other instruction's answer depends on a pixel. -/

namespace Sys2Proof.Machine

/-! ## What a sprite covers, and its second drawing (R151, R152) -/

/-- A byte that is not 0 has a set bit in one of its eight columns. -/
theorem exists_column_of_ne_zero {b : Byte} (hb : b ≠ 0) :
    ∃ c, c < 8 ∧ b.getLsbD (7 - c) = true := by
  by_contra hnone
  refine hb (BitVec.eq_of_getLsbD_eq fun k hk => ?_)
  have hk' : 7 - (7 - k) = k := by omega
  rw [BitVec.ofNat_eq_ofNat, BitVec.getLsbD_zero, ← Bool.not_eq_true]
  exact fun hset => hnone ⟨7 - k, by omega, hk'.symm ▸ hset⟩

theorem exists_covers {sprite : List Byte} {r : Nat} (hr : r < sprite.length)
    (hne : sprite.getD r 0 ≠ 0) (ox oy : Nat) : ∃ px py, Covers ox oy sprite px py := by
  obtain ⟨c, hc, hbit⟩ := exists_column_of_ne_zero hne
  exact ⟨wrapX (ox + c), wrapY (oy + r), r, c, hr, hc, hbit, rfl, rfl⟩

/-- The second of two drawings collides exactly where the first one lit a pixel. -/
theorem drawSprite_twice_collision (fb : Framebuffer) (ox oy : Nat) {sprite : List Byte}
    (h : sprite.length ≤ 32) :
    (drawSprite (drawSprite fb ox oy sprite).1 ox oy sprite).2 = true ↔
      ∃ px py, Covers ox oy sprite px py ∧ Framebuffer.pixel fb px py = false := by
  rw [drawSprite_collision _ ox oy h]
  refine exists_congr fun px => exists_congr fun py => and_congr_right fun hc => ?_
  rw [(drawSprite_pixel fb ox oy h px py).1 hc, Bool.not_eq_true']

/-! ## DRW within memory (R151) -/

/-- The framebuffer and the collision that DRW computes from the state. -/
def spriteDrawn (x y : Reg) (n : Fin 16) (s : State) : Drawing :=
  drawSprite s.fb (s.getV x).toNat (s.getV y).toNat (s.mem.getBytes s.i.toNat n.val)

/-- A sprite has at most 15 rows, so none of them wraps onto another. -/
theorem sprite_length_le (s : State) (n : Fin 16) :
    (s.mem.getBytes s.i.toNat n.val).length ≤ 32 := by
  rw [Memory.getBytes_length]
  omega

section
variable {s : State} {x y : Reg} {n : Fin 16}

theorem execDrw_of_le (hfit : n.val = 0 ∨ s.i.toNat + n.val - 1 ≤ 4095) :
    execDrw x y n s = .next ((s.setFb (spriteDrawn x y n s).1).setV regF
      (flag (spriteDrawn x y n s).2)) := by
  obtain ⟨-, d, rfl, h⟩ | ⟨hne, hgt, -⟩ := execDrw_cases x y n s
  · exact h
  · omega

theorem eq_of_execDrw {t : State} (h : execDrw x y n s = .next t)
    (hfit : n.val = 0 ∨ s.i.toNat + n.val - 1 ≤ 4095) :
    t = (s.setFb (spriteDrawn x y n s).1).setV regF (flag (spriteDrawn x y n s).2) := by
  cases (execDrw_of_le hfit).symm.trans h
  rfl

/-- DRW once more, where the first one has not written its own origin: the same sprite is drawn on
the new framebuffer. -/
theorem spriteDrawn_setFb_setV {fb : Framebuffer} {b : Byte}
    (hx : ((s.setFb fb).setV regF b).getV x = s.getV x)
    (hy : ((s.setFb fb).setV regF b).getV y = s.getV y) :
    spriteDrawn x y n ((s.setFb fb).setV regF b) =
      drawSprite fb (s.getV x).toNat (s.getV y).toNat (s.mem.getBytes s.i.toNat n.val) := by
  rw [spriteDrawn, hx, hy]
  rfl

theorem exists_execDrw_takesFault (hpos : 0 < n.val) (hgt : 4095 < s.i.toNat + n.val - 1) :
    ∃ t, execDrw x y n s = .next t ∧ TakesFault .memOob (.drw x y n) s t := by
  obtain ⟨hfit, -⟩ | ⟨-, -, h⟩ := execDrw_cases x y n s
  · omega
  · exact ⟨_, h, s.raiseFrom_eq .memOob (.drw x y n)⟩

end

/-- `VF` after DRW is 1 exactly on a collision. -/
theorem getV_regF_setV_flag_eq_one (s : State) (c : Bool) :
    (s.setV regF (flag c)).getV regF = 1 ↔ c = true := by
  rw [State.getV_setV_self]
  exact flag_eq_one

theorem flag_eq_zero_or_one (c : Bool) : flag c = 0 ∨ flag c = 1 := by
  cases c with
  | false => exact .inl rfl
  | true => exact .inr rfl

/-- Settles O40: DRW draws the rows read from `I`, and a drawing flips what its sprite covers. -/
theorem drawXorsCoveredPixels : Obligations.DrawXorsCoveredPixels := by
  refine ⟨fun _ _ _ _ => decodeWord_eq_some_iff_of_wordXYN (n1 := 0xD) rfl,
    fun s x y n hfit => ?_, fun _ _ _ _ => exists_execDrw_takesFault⟩
  have hlen := sprite_length_le s n
  refine ⟨_, s.mem.getBytes s.i.toNat n.val, execDrw_of_le hfit, Memory.getBytes_length ..,
    fun r hr => Memory.getBytes_getD _ _ _ _ hr,
    fun px py => (drawSprite_pixel s.fb _ _ hlen px py).1,
    fun px py => (drawSprite_pixel s.fb _ _ hlen px py).2, ?_, ?_, onlyRegs_setV _ regF _⟩
  · rw [getV_regF_setV_flag_eq_one]
    exact drawSprite_collision s.fb _ _ hlen
  · rw [State.getV_setV_self]
    exact flag_eq_zero_or_one _

/-- Settles O41: DRW leaves memory and `I` as they were, so it draws the same sprite again. -/
theorem drawingTwiceRestores : Obligations.DrawingTwiceRestores := by
  intro s t u x y n hfit ht hx hy hu
  have hlen := sprite_length_le s n
  obtain rfl := eq_of_execDrw ht hfit
  obtain rfl := eq_of_execDrw hu hfit
  rw [getV_regF_setV_flag_eq_one, State.setV_fb, State.setFb_fb, spriteDrawn_setFb_setV hx hy]
  have hcollides := drawSprite_twice_collision s.fb (s.getV x).toNat (s.getV y).toNat hlen
  refine ⟨drawSprite_twice s.fb _ _ hlen, hcollides, fun hblank ⟨r, hr, hne⟩ => ?_⟩
  have hrow : (s.mem.getBytes s.i.toNat n.val).getD r 0 ≠ 0 := by
    rwa [Memory.getBytes_getD _ _ _ _ hr]
  obtain ⟨px, py, hc⟩ := exists_covers (by rwa [Memory.getBytes_length]) hrow _ _
  exact hcollides.2 ⟨px, py, hc, hblank px py⟩

/-- Settles O39: its word is one constant, and its meaning writes the framebuffer alone. -/
theorem clearScreenUnlightsAll : Obligations.ClearScreenUnlightsAll :=
  ⟨fun _ => decodeWord_eq_some_iff_toNat, fun _ => ⟨_, rfl, Framebuffer.pixel_blank, rfl⟩⟩

/-! ## No other instruction reads a pixel (R153): it commutes with a change of `FB` -/

/-- A change of the next state in an answer. -/
def mapNext (g : State → State) : Result → Result
  | .next t => .next (g t)
  | .fault r => .fault r
  | .refused r => .refused r

section
variable (s : State) (f : Framebuffer)

theorem State.setFb_push (w : Word) : (s.setFb f).push w = (s.push w).map (·.setFb f) := by
  by_cases h : s.sp.val < 16
  · rw [push_of_lt h, push_of_lt (s := s.setFb f) h]; rfl
  · simp [push, h]

theorem State.setFb_pop : (s.setFb f).pop = s.pop.map fun p => (p.1, p.2.setFb f) := by
  by_cases h : 0 < s.sp.val
  · rw [pop_of_pos h, pop_of_pos (s := s.setFb f) h]; rfl
  · simp [pop, h]

theorem execRet_setFb : execRet (s.setFb f) = mapNext (·.setFb f) (execRet s) := by
  unfold execRet
  rw [State.setFb_pop]
  cases s.pop <;> rfl

theorem execCall_setFb (nnn : Addr12) :
    execCall nnn (s.setFb f) = mapNext (·.setFb f) (execCall nnn s) := by
  unfold execCall
  rw [State.setFb_push, State.setFb_pc]
  cases s.push s.pc <;> rfl

theorem execLdK_setFb (x : Reg) : execLdK x (s.setFb f) = mapNext (·.setFb f) (execLdK x s) := by
  unfold execLdK
  rw [State.setFb_key]
  cases heldKey s.key <;> rfl

theorem storeAtI_setFb (bytes : List Byte) (i : Instr) :
    storeAtI bytes i (s.setFb f) = mapNext (·.setFb f) (storeAtI bytes i s) := by
  unfold storeAtI
  rw [State.setFb_mem, State.setFb_i]
  cases s.mem.store s.i.toNat bytes <;> rfl

theorem execLdRegs_setFb (x : Reg) :
    execLdRegs x (s.setFb f) = mapNext (·.setFb f) (execLdRegs x s) := by
  unfold execLdRegs
  rw [State.setFb_mem, State.setFb_i]
  cases s.mem.load s.i.toNat (x.val + 1) <;> rfl

theorem skipIf_setFb (c : Bool) : skipIf c (s.setFb f) = mapNext (·.setFb f) (skipIf c s) := by
  cases c <;> rfl

theorem skipIfKey_setFb (down : Bool) (x : Reg) (i : Instr) :
    skipIfKey down x i (s.setFb f) = mapNext (·.setFb f) (skipIfKey down x i s) := by
  unfold skipIfKey
  rw [State.setFb_getV, State.setFb_key]
  cases keyIndex (s.getV x) with
  | some k => exact skipIf_setFb s f _
  | none => rfl

/-- `FB` is carried through by every instruction but the two that write it. -/
theorem exec_setFb {i : Instr} (hcls : i ≠ .cls) (hdrw : ∀ x y n, i ≠ .drw x y n) :
    exec i (s.setFb f) = mapNext (·.setFb f) (exec i s) := by
  cases i with
  | cls => exact absurd rfl hcls
  | drw x y n => exact absurd rfl (hdrw x y n)
  | ret => exact execRet_setFb s f
  | call nnn => exact execCall_setFb s f nnn
  | ldK x => exact execLdK_setFb s f x
  | ldB x | stRegs x => exact storeAtI_setFb s f _ _
  | ldRegs x => exact execLdRegs_setFb s f x
  | skp x | sknp x => exact skipIfKey_setFb s f _ x _
  | seImm x kk | sneImm x kk | seReg x y | sneReg x y => exact skipIf_setFb s f _
  | _ => rfl

end

/-! ## DRW reads pixels into `VF` alone -/

theorem State.setV_setV_self (s : State) (x : Reg) (b c : Byte) :
    (s.setV x b).setV x c = s.setV x c :=
  congrArg s.setVs (Vector.set_set ..)

theorem State.setV_getV_self (s : State) (x : Reg) : s.setV x (s.getV x) = s :=
  congrArg s.setVs (Vector.set_getElem_self ..)

theorem exists_execDrw_setFb {x y : Reg} {n : Fin 16} {s t : State} (f : Framebuffer)
    (h : execDrw x y n s = .next t) :
    ∃ g b, execDrw x y n (s.setFb f) = .next ((t.setFb g).setV regF b) := by
  unfold execDrw at h ⊢
  rw [State.setFb_mem, State.setFb_i]
  generalize s.mem.load s.i.toNat n.val = r at h ⊢
  cases r with
  | some sprite =>
    cases h
    exact ⟨_, _, congrArg _ (State.setV_setV_self _ regF _ _).symm⟩
  | none =>
    cases h
    exact ⟨f, _, congrArg _ (State.setV_getV_self _ regF).symm⟩

/-- Settles O46: CLS overwrites `FB`, DRW reads it for `VF`, every other instruction carries it. -/
theorem pixelsAreReadOnlyThroughCollision : Obligations.PixelsAreReadOnlyThroughCollision := by
  refine ⟨fun i s t f hdrw h => ?_, fun _ _ _ _ _ f => exists_execDrw_setFb f⟩
  by_cases hcls : i = .cls
  · subst hcls
    cases h
    exact ⟨Framebuffer.blank, rfl⟩
  · refine ⟨f, ?_⟩
    rw [exec_setFb s f hcls hdrw, h]
    rfl

end Sys2Proof.Machine
end

section
/-! PROOFS. The key and timer instructions (spec/46_keys_timers.md R160 to R165): the skips on one key, the
wait for a key, and the moves between a register and a timer. -/

namespace Sys2Proof

/-- The row of major nibble E: the byte `kk` names the key skip (R75). -/
theorem decodeWord_eq_some_iff_of_wordEXKK {op : Word} {i : Instr} {x : Reg} {kk : Byte}
    (hi : encode i = wordXKK 0xE x kk) :
    decodeWord op = some i ↔ op.toNat = 0xE000 + kk.toNat + x.val * 256 := by
  have hmajor : (0xE : BitVec 4).toNat = 14 := rfl
  rw [decodeWord_eq_some_iff_of_wordXKK hi, hmajor]
  omega

end Sys2Proof

namespace Sys2Proof.Machine

/-! ## The skips on a key (R160, R161) -/

section
variable {s : State} {x : Reg}

/-- With a key number in Vx a key skip is a skip on the state of that key. -/
theorem skipIfKey_of_key {k : Fin 16} (hk : (s.getV x).toNat = k.val) (down : Bool) (i : Instr) :
    skipIfKey down x i s = skipIf (s.key.get k == down) s := by
  rw [skipIfKey, keyIndex_eq_some.2 hk]

theorem exists_skipIfKey_onlyPc {a : Word} {k : Fin 16} (hpc : s.pc = a + 2)
    (hk : (s.getV x).toNat = k.val) (down : Bool) (i : Instr) :
    ∃ t, skipIfKey down x i s = .next t ∧ OnlyPc s t ∧
      t.pc = if s.key.get k = down then a + 4 else a + 2 := by
  rw [skipIfKey_of_key hk]
  exact exists_skipIf_eq_next hpc beq_iff_eq

/-- A number above 15 in Vx names no key (decision D3, log 3). -/
theorem exists_skipIfKey_takesFault (hgt : 15 < (s.getV x).toNat) (down : Bool) (i : Instr) :
    ∃ t, skipIfKey down x i s = .next t ∧ TakesFault .keyIndexOob i s t := by
  obtain ⟨k, hk, -⟩ | ⟨-, h⟩ := skipIfKey_cases down x i s
  · omega
  · exact ⟨_, h, s.raiseFrom_eq .keyIndexOob i⟩

end

/-- Settles O42: SKP and SKNP are one skip, on the key held and on the key not held. -/
theorem keySkipsTestOneKey : Obligations.KeySkipsTestOneKey := by
  refine ⟨fun _ _ => ⟨?_, ?_⟩, fun s a x k hpc hk => ⟨?_, ?_⟩, fun s x hgt => ⟨?_, ?_⟩⟩
  · exact decodeWord_eq_some_iff_of_wordEXKK (kk := 0x9E) rfl
  · exact decodeWord_eq_some_iff_of_wordEXKK (kk := 0xA1) rfl
  · exact exists_skipIfKey_onlyPc hpc hk true (.skp x)
  · exact exists_skipIfKey_onlyPc hpc hk false (.sknp x)
  · exact exists_skipIfKey_takesFault hgt true (.skp x)
  · exact exists_skipIfKey_takesFault hgt false (.sknp x)

/-! ## The wait for a key (R162) -/

section
variable {s : State}

theorem execLdK_of_highest_held {k : Fin 16} (hheld : s.key.get k = true)
    (hhighest : ∀ j : Fin 16, k < j → s.key.get j = false) (x : Reg) :
    execLdK x s = .next (s.setV x (keyByte k)) := by
  rw [execLdK, heldKey_eq_some.2 ⟨hheld, hhighest⟩]

theorem execLdK_of_none_held (hnone : ∀ j : Fin 16, s.key.get j = false) (x : Reg) :
    execLdK x s = .next (s.setPc (s.pc - 2)) := by
  rw [execLdK, heldKey_eq_none.2 hnone]
  rfl

/-- Going back by 2 undoes the fetch's advance, so a waiting STEP is a fixed point. -/
theorem step_of_ldK_of_none_held {x : Reg} (hrun : ¬ s.Halted)
    (hi : s.nextInstr = some (.ldK x)) (hnone : ∀ j : Fin 16, s.key.get j = false) :
    step s = .next s :=
  calc step s = execLdK x (s.setPc (s.pc + 2)) := step_of_nextInstr hrun hi
    _ = .next ((s.setPc (s.pc + 2)).setPc (s.pc + 2 - 2)) :=
      execLdK_of_none_held (s := s.setPc (s.pc + 2)) hnone x
    _ = .next s := by rw [BitVec.add_sub_cancel, State.setPc_setPc, State.setPc_pc_self]

end

/-- Settles O43: by what the scan of the keys finds, the highest held key or none. -/
theorem keyWaitTakesTheHighestHeldKey : Obligations.KeyWaitTakesTheHighestHeldKey := by
  refine ⟨fun _ _ => decodeWord_eq_some_iff_of_wordFXKK (kk := 0x0A) rfl,
    fun s x k hheld hhighest => ⟨_, execLdK_of_highest_held hheld hhighest x, ?_, ?_⟩,
    fun _ x hnone => execLdK_of_none_held hnone x,
    fun _ _ hrun hi hnone => step_of_ldK_of_none_held hrun hi hnone⟩
  · rw [State.getV_setV_self, keyByte_toNat]
  · exact onlyRegs_setV s x (keyByte k)

/-! ## The timer moves (R163 to R165) -/

/-- Settles O44: the words by their formats, and each meaning as the write of one register or timer. -/
theorem timerRegistersAreReadAndWritten : Obligations.TimerRegistersAreReadAndWritten := by
  refine ⟨fun _ _ => ⟨?_, ?_, ?_⟩, fun s x => ⟨?_, ?_, ?_⟩⟩
  · exact decodeWord_eq_some_iff_of_wordFXKK (kk := 0x07) rfl
  · exact decodeWord_eq_some_iff_of_wordFXKK (kk := 0x15) rfl
  · exact decodeWord_eq_some_iff_of_wordFXKK (kk := 0x18) rfl
  · exact ⟨_, rfl, s.getV_setV_self x s.dt, onlyRegs_setV s x s.dt⟩
  · exact ⟨_, rfl, rfl, rfl⟩
  · exact ⟨_, rfl, rfl, rfl⟩

end Sys2Proof.Machine
end

section
/-! PROOFS. When a STEP takes which fault (spec/60_exceptions.md R171, R173): the condition column of the
table, read at the STEP, is the condition of the one place that raises. -/

namespace Sys2Proof.Machine

/-- A fault just taken is the recorded one. -/
theorem State.takeFault_cause_iff (s : State) (op a : Word) {c d : Cause} :
    (s.takeFault d op a).Halted ∧ (s.takeFault d op a).fault.cause = c ↔ c = d :=
  ⟨fun ⟨_, h⟩ => h.symm, fun h => ⟨rfl, h.symm⟩⟩

theorem State.nextInstr_eq_none_of_fetch {s : State} (hf : s.fetch = none) : s.nextInstr = none := by
  rw [nextInstr, hf, Option.bind_none]

theorem State.nextInstr_eq_decodeWord {s : State} {op : Word} (hf : s.fetch = some op) :
    s.nextInstr = decodeWord op := by
  rw [nextInstr, hf, Option.bind_some]

theorem State.not_fetchOob_of_fetch {s : State} {op : Word} (hf : s.fetch = some op) :
    ¬ StepRaises s .fetchOob :=
  Nat.not_lt.2 (Nat.succ_le_succ (pc_of_fetch hf))

theorem stepRaises_iff_of_fetch_none {s : State} {c : Cause} (hf : s.fetch = none) :
    StepRaises s c ↔ c = .fetchOob := by
  have hi := State.nextInstr_eq_none_of_fetch hf
  cases c with
  | fetchOob => exact iff_of_true (State.fetch_eq_none.1 hf) rfl
  | _ => simp [StepRaises, hi, hf]

theorem stepRaises_iff_of_undefined {s : State} {op : Word} {c : Cause} (hf : s.fetch = some op)
    (hd : decodeWord op = none) : StepRaises s c ↔ c = .undefinedOpcode := by
  have hi : s.nextInstr = none := (State.nextInstr_eq_decodeWord hf).trans hd
  cases c with
  | fetchOob => exact iff_of_false (State.not_fetchOob_of_fetch hf) (by decide)
  | undefinedOpcode => exact iff_of_true ⟨op, hf, hd⟩ rfl
  | _ => simp [StepRaises, hi]

/-- Past the fetch and the decoder a STEP's conditions are the instruction's own, which do not read
`pc`. -/
theorem stepRaises_iff_instrRaises {s : State} {op : Word} {i : Instr} (hf : s.fetch = some op)
    (hd : decodeWord op = some i) (p : Word) (c : Cause) :
    StepRaises s c ↔ InstrRaises i (s.setPc p) c := by
  have hi : s.nextInstr = some i := (State.nextInstr_eq_decodeWord hf).trans hd
  cases c with
  | fetchOob => exact iff_of_false (State.not_fetchOob_of_fetch hf) id
  | _ => simp [StepRaises, InstrRaises, hi, hf, hd]

theorem InstrRaises.iff_eq {i : Instr} {s : State} {c d : Cause} (hd : InstrRaises i s d) :
    InstrRaises i s c ↔ c = d :=
  ⟨fun hc => hc.unique hd, fun h => h ▸ hd⟩

/-- Settles O15: by what a STEP can do; where it raises, the one condition that holds is that cause's. -/
theorem faultsExactlyUnderTheirConditions : Obligations.FaultsExactlyUnderTheirConditions := by
  intro s t c hrun h _
  obtain ⟨hv, -⟩ | ⟨-, hf, heq⟩ | ⟨op, -, hf, hd, heq⟩ | ⟨op, i, -, hf, hd, heq⟩ := step_cases s
  · exact absurd hv hrun
  · cases heq.symm.trans h
    rw [State.takeFault_cause_iff, stepRaises_iff_of_fetch_none hf]
  · cases heq.symm.trans h
    rw [State.takeFault_cause_iff, stepRaises_iff_of_undefined hf hd]
  · rw [stepRaises_iff_instrRaises hf hd (s.pc + 2)]
    obtain ⟨hfault, hnone⟩ | ⟨d, hraise, rfl⟩ := exec_ok_or_raises i _ t (heq.symm.trans h)
    · have ht : ¬ t.Halted := by
        rw [State.Halted, hfault]
        exact hrun
      exact iff_of_false (fun hc => ht hc.1) (hnone c)
    · rw [hraise.iff_eq, raiseFrom_setPc_add_two, State.takeFault_cause_iff]

end Sys2Proof.Machine
end

section
/-! PROOFS. RAND is read by RND alone (R132, R183): every other instruction commutes with a change of the
count of draws, by which the random bytes are read (log 9). -/

namespace Sys2Proof.Machine

/-- Replace the count of draws. -/
def State.setDraws (s : State) (n : Nat) : State := { s with draws := n }

section
variable (s : State) (n : Nat)

@[simp] theorem State.setDraws_mem : (s.setDraws n).mem = s.mem := rfl
@[simp] theorem State.setDraws_i : (s.setDraws n).i = s.i := rfl
@[simp] theorem State.setDraws_key : (s.setDraws n).key = s.key := rfl
@[simp] theorem State.setDraws_getV (k : Reg) : (s.setDraws n).getV k = s.getV k := rfl

theorem execRet_setDraws : execRet (s.setDraws n) = mapNext (·.setDraws n) (execRet s) := by
  obtain h | h := Nat.eq_zero_or_pos s.sp.val
  · rw [execRet_of_empty h, execRet_of_empty (s := s.setDraws n) h]; rfl
  · rw [execRet_of_pos h, execRet_of_pos (s := s.setDraws n) h]; rfl

theorem execCall_setDraws (nnn : Addr12) :
    execCall nnn (s.setDraws n) = mapNext (·.setDraws n) (execCall nnn s) := by
  obtain h | h := Nat.lt_or_eq_of_le (Nat.le_of_lt_succ s.sp.isLt)
  · rw [execCall_of_lt h, execCall_of_lt (s := s.setDraws n) h]; rfl
  · rw [execCall_of_full h, execCall_of_full (s := s.setDraws n) h]; rfl

theorem execLdK_setDraws (x : Reg) :
    execLdK x (s.setDraws n) = mapNext (·.setDraws n) (execLdK x s) := by
  rw [execLdK, execLdK, State.setDraws_key]
  cases heldKey s.key <;> rfl

theorem storeAtI_setDraws (bytes : List Byte) (i : Instr) :
    storeAtI bytes i (s.setDraws n) = mapNext (·.setDraws n) (storeAtI bytes i s) := by
  rw [storeAtI, storeAtI, State.setDraws_mem, State.setDraws_i]
  cases s.mem.store s.i.toNat bytes <;> rfl

theorem execLdRegs_setDraws (x : Reg) :
    execLdRegs x (s.setDraws n) = mapNext (·.setDraws n) (execLdRegs x s) := by
  rw [execLdRegs, execLdRegs, State.setDraws_mem, State.setDraws_i]
  cases s.mem.load s.i.toNat (x.val + 1) <;> rfl

theorem execDrw_setDraws (x y : Reg) (height : Fin 16) :
    execDrw x y height (s.setDraws n) = mapNext (·.setDraws n) (execDrw x y height s) := by
  rw [execDrw, execDrw, State.setDraws_mem, State.setDraws_i]
  cases s.mem.load s.i.toNat height.val <;> rfl

theorem skipIf_setDraws (c : Bool) :
    skipIf c (s.setDraws n) = mapNext (·.setDraws n) (skipIf c s) := by
  cases c <;> rfl

theorem skipIfKey_setDraws (down : Bool) (x : Reg) (i : Instr) :
    skipIfKey down x i (s.setDraws n) = mapNext (·.setDraws n) (skipIfKey down x i s) := by
  rw [skipIfKey, skipIfKey, State.setDraws_getV, State.setDraws_key]
  cases keyIndex (s.getV x) with
  | some k => exact skipIf_setDraws s n _
  | none => rfl

/-- The count of draws is carried through by every instruction but RND. -/
theorem exec_setDraws {i : Instr} (hrnd : ∀ x kk, i ≠ .rnd x kk) :
    exec i (s.setDraws n) = mapNext (·.setDraws n) (exec i s) := by
  cases i with
  | rnd x kk => exact absurd rfl (hrnd x kk)
  | ret => exact execRet_setDraws s n
  | call nnn => exact execCall_setDraws s n nnn
  | ldK x => exact execLdK_setDraws s n x
  | ldB x | stRegs x => exact storeAtI_setDraws s n _ _
  | ldRegs x => exact execLdRegs_setDraws s n x
  | drw x y height => exact execDrw_setDraws s n x y height
  | skp x | sknp x => exact skipIfKey_setDraws s n _ x _
  | seImm x kk | sneImm x kk | seReg x y | sneReg x y => exact skipIf_setDraws s n _
  | _ => rfl

end

/-- Settles O32: the two runs differ in the count of draws alone. -/
theorem onlyRandomReadsTheDraws : Obligations.OnlyRandomReadsTheDraws := by
  intro i s t n hrnd h
  have hcomm := exec_setDraws s n hrnd
  rw [h] at hcomm
  exact hcomm

end Sys2Proof.Machine
end

section
/-! PROOFS. The timers and the keys of the host (spec/60_exceptions.md R178 to R181): one tick, `n` of
them, and one key. -/

namespace Sys2Proof.Machine

/-! ## The timers (R178, R179) -/

/-- A timer counts down to 0 and stays there, as subtraction of natural numbers does. -/
theorem countDown_toNat (b : Byte) : (countDown b).toNat = b.toNat - 1 := by
  rw [countDown]
  split
  · next h => rw [h]; rfl
  · next h => bv_omega

theorem countDown_iterate_toNat (n : Nat) (b : Byte) : (countDown^[n] b).toNat = b.toNat - n := by
  induction n with
  | zero => rfl
  | succ n ih => rw [Function.iterate_succ_apply', countDown_toNat, ih, Nat.sub_sub]

theorem timerTick_of_not_halted {s : State} (h : ¬ s.Halted) :
    timerTick s = ((s.setDt (countDown s.dt)).setSt (countDown s.st), s.st == 1) := if_neg h

/-- Settles O47: on a running and on a halted machine. -/
theorem timerTickCountsDown : Obligations.TimerTickCountsDown := by
  refine ⟨fun s hrun => ?_, fun _ => timerTick_of_halted⟩
  rw [timerTick_of_not_halted hrun]
  exact ⟨countDown_toNat s.dt, countDown_toNat s.st, rfl, beq_eq_true_iff_toNat⟩

/-- Both timers count down side by side; a tick does not halt the machine. -/
theorem runSchedule_replicate_timerTick (n : Nat) {s : State} (h : ¬ s.Halted) :
    runSchedule (List.replicate n .timerTick) s =
      .next ((s.setDt (countDown^[n] s.dt)).setSt (countDown^[n] s.st)) := by
  induction n generalizing s with
  | zero => rfl
  | succ n ih =>
    have htick : runOp .timerTick s = .next ((s.setDt (countDown s.dt)).setSt (countDown s.st)) := by
      rw [runOp, timerTick_of_not_halted h]
    exact (runSchedule_cons_of_next htick _).trans (ih h)

theorem countDown_iterate_eq_zero {n : Nat} (h : 255 ≤ n) (b : Byte) : countDown^[n] b = 0 := by
  have hb := b.isLt
  have hzero : (countDown^[n] b).toNat = 0 := by rw [countDown_iterate_toNat]; omega
  exact BitVec.eq_of_toNat_eq hzero

/-- Settles O48: each timer counts down by itself. -/
theorem ticksRunTheTimersDown : Obligations.TicksRunTheTimersDown := by
  intro n s hrun
  exact ⟨_, runSchedule_replicate_timerTick n hrun, countDown_iterate_toNat n s.dt,
    countDown_iterate_toNat n s.st, rfl,
    fun hn => ⟨countDown_iterate_eq_zero hn.ge s.dt, countDown_iterate_eq_zero hn.ge s.st⟩⟩

/-! ## The keys (R181) -/

theorem setKey_of_not_halted {s : State} (h : ¬ s.Halted) (k : Fin 16) (b : Bool) :
    setKey k b s = s.setKeys (s.key.set k b) := if_neg h

theorem key_get_set (key : Vector Bool 16) (k j : Fin 16) (b : Bool) :
    (key.set k b).get j = if j = k then b else key.get j := by
  rw [Vector.get_eq_getElem, Vector.get_eq_getElem, Vector.getElem_set]
  simp only [Fin.ext_iff, eq_comm]

/-- Settles O49: on a running and on a halted machine. -/
theorem setKeyWritesOneKey : Obligations.SetKeyWritesOneKey := by
  refine ⟨fun s k b hrun => ?_, fun _ _ _ => setKey_of_halted⟩
  rw [setKey_of_not_halted hrun]
  refine ⟨?_, fun j hj => ?_, rfl⟩
  · exact (key_get_set s.key k k b).trans (if_pos rfl)
  · exact (key_get_set s.key k j b).trans (if_neg hj)

end Sys2Proof.Machine
end

section
/-! PROOFS. RESET, LOAD_PROGRAM and a run over zeroed memory (spec/70_reset_and_hazards.md R200 to R202,
R209). -/

namespace Sys2Proof.Machine

/-! ## RESET (R200) -/

/-- Settles O8: every operation answers a state, and RESET keeps nothing of it but the draws. -/
theorem resetRestoresTheConstructedState : Obligations.ResetRestoresTheConstructedState := by
  intro ops
  induction ops with
  | nil => exact fun s => ⟨s.draws, rfl⟩
  | cons op ops ih =>
    intro s
    obtain ⟨t, ht⟩ := exists_runOp_eq_next op s
    rw [List.cons_append, runSchedule_cons_of_next ht]
    exact ih t

/-! ## LOAD_PROGRAM (R202) -/

theorem programFits_iff {bytes : List Byte} : programFits bytes = true ↔ bytes.length ≤ 3584 :=
  decide_eq_true_iff

theorem loadProgram_of_fits {s : State} {bytes : List Byte} (hrun : ¬ s.Halted)
    (hfit : bytes.length ≤ 3584) :
    loadProgram bytes s = s.setMem (s.mem.setBytes 0x200 bytes) :=
  (if_neg hrun).trans (if_pos (programFits_iff.2 hfit))

theorem loadProgram_of_too_long {s : State} {bytes : List Byte} (hrun : ¬ s.Halted)
    (hlong : 3584 < bytes.length) :
    loadProgram bytes s = s.takeFault .loadCapacity 0 0x200 :=
  (if_neg hrun).trans (if_neg fun h => Nat.not_le_of_lt hlong (programFits_iff.1 h))

/-- Settles O50: a program that fits, one that does not, and a halted machine. -/
theorem loadProgramIsAllOrNothing : Obligations.LoadProgramIsAllOrNothing := by
  refine ⟨fun s bytes hrun hfit => ?_, fun _ _ hrun hlong => loadProgram_of_too_long hrun hlong,
    fun _ _ => loadProgram_of_halted⟩
  rw [loadProgram_of_fits hrun hfit, State.setMem_mem]
  refine ⟨fun k hk => ?_, fun a ha => ?_, rfl⟩
  · rw [Memory.get_setBytes, if_pos (by omega), Nat.add_sub_cancel_left]
  · rw [Memory.get_setBytes, if_neg (by omega)]

/-! ## Zeroed memory (R209) -/

/-- A run goes on from the state its first step answers. -/
theorem run_succ_of_next {M : Host.Core} {s t : M.State} (h : M.step s = .next t) (n : Nat) :
    M.run (n + 1) s = M.run n t := by
  rw [Host.Core.run, h]

/-- Two zero bytes are the word of NOP (R95). -/
theorem step_of_zero_bytes {s : State} (hrun : ¬ s.Halted) (hpc : s.pc.toNat + 1 ≤ 4095)
    (hhi : s.mem.get s.pc.toNat = 0) (hlo : s.mem.get (s.pc.toNat + 1) = 0) :
    step s = .next (s.setPc (s.pc + 2)) := by
  obtain ⟨-, -, -, hnop⟩ := nopOnlyAdvances
  refine hnop s hrun ?_
  rw [State.fetch_of_le hpc, hhi, hlo]
  rfl

/-- Every byte of memory from `pc` up is zero. -/
def State.ZeroFromPc (s : State) : Prop := ∀ a : Nat, s.pc.toNat ≤ a → a < 4096 → s.mem.get a = 0

theorem exists_run_of_zeroFromPc {n : Nat} {s : State} (hrun : ¬ s.Halted) (hzero : s.ZeroFromPc)
    (hend : s.pc.toNat + 2 * n ≤ 4096) :
    ∃ t, core.run n s = .next t ∧ t.pc.toNat = s.pc.toNat + 2 * n ∧ OnlyPc s t := by
  induction n generalizing s with
  | zero => exact ⟨s, rfl, rfl, rfl⟩
  | succ n ih =>
    have hpc : (s.pc + 2).toNat = s.pc.toNat + 2 := pc_add_two_toNat (by omega)
    have hstep : step s = .next (s.setPc (s.pc + 2)) :=
      step_of_zero_bytes hrun (by omega) (hzero _ (by omega) (by omega))
        (hzero _ (by omega) (by omega))
    have hzero' : (s.setPc (s.pc + 2)).ZeroFromPc := fun a ha =>
      hzero a (Nat.le_trans (Nat.le_add_right _ 2) (hpc.symm.trans_le ha))
    obtain ⟨t, ht, htpc, hframe⟩ := ih (s := s.setPc (s.pc + 2)) hrun hzero'
      (by rw [State.setPc_pc]; omega)
    refine ⟨t, (run_succ_of_next (M := core) hstep n).trans ht, ?_, hframe⟩
    rw [htpc, State.setPc_pc]
    omega

/-- A machine that has only moved `pc` is halted where it was halted before. -/
theorem OnlyPc.not_halted {s t : State} (h : OnlyPc s t) (hrun : ¬ s.Halted) : ¬ t.Halted := by
  rw [h]
  exact hrun

/-- Settles O51: by induction on the STEPs, each over two zero bytes; at 4096 nothing is fetched. -/
theorem zeroedMemoryRunsToItsEnd : Obligations.ZeroedMemoryRunsToItsEnd := by
  intro n s hrun hzero hend
  obtain ⟨t, ht, htpc, hframe⟩ := exists_run_of_zeroFromPc hrun hzero hend
  refine ⟨t, ht, htpc, hframe, fun hlast => ?_⟩
  have hpc : t.pc = 0x1000 := BitVec.eq_of_toNat_eq (htpc.trans hlast)
  rw [← hpc]
  exact fetchBeyondMemoryFaults t (hframe.not_halted hrun) (by omega)

end Sys2Proof.Machine
end
